-- ==== Sys2Proof/Word.lean ====
section
/-! DEFINITION. The value types of the core (R4, R7): bytes, 16-bit words, register numbers. -/

namespace Sys2Proof

/-- A general register, a memory byte, a timer or an 8-bit immediate (R4 `XLEN`, R7: unsigned). -/
abbrev Byte := BitVec 8

/-- An instruction word, `I`, `pc` or a call-stack entry (R4 `ADDR_REG_WIDTH`, `ILEN`). -/
abbrev Word := BitVec 16

/-- A register number 0..15, as an x or y field names one (R21, R91). -/
abbrev RegIx := Fin 16

end Sys2Proof
end

