-- ==== Sys2Proof/Syntax.lean ====
section
/-! DEFINITION. The 35 instructions, one constructor per row of spec/opcode_table.json (R95). -/

namespace Sys2Proof

/-- One constructor per row of the opcode map (R95), in its order. A field `z` holds bits the decoder ignores
(R96), and the `y` of `shr` and `shl` is such a field too: they are kept so that decoding loses nothing (log 12). -/
inductive Instr where
  | sys (nnn : BitVec 12)                    -- 0nnn  SYS addr
  | cls (z : BitVec 4)                       -- 0zE0  CLS
  | ret (z : BitVec 4)                       -- 0zEE  RET
  | jp (nnn : BitVec 12)                     -- 1nnn  JP addr
  | call (nnn : BitVec 12)                   -- 2nnn  CALL addr
  | seByte (x : RegIx) (kk : Byte)           -- 3xkk  SE Vx, byte
  | sneByte (x : RegIx) (kk : Byte)          -- 4xkk  SNE Vx, byte
  | seReg (x y : RegIx) (z : BitVec 4)       -- 5xyz  SE Vx, Vy
  | ldByte (x : RegIx) (kk : Byte)           -- 6xkk  LD Vx, byte
  | addByte (x : RegIx) (kk : Byte)          -- 7xkk  ADD Vx, byte
  | ldReg (x y : RegIx)                      -- 8xy0  LD Vx, Vy
  | orReg (x y : RegIx)                      -- 8xy1  OR Vx, Vy
  | andReg (x y : RegIx)                     -- 8xy2  AND Vx, Vy
  | xorReg (x y : RegIx)                     -- 8xy3  XOR Vx, Vy
  | addReg (x y : RegIx)                     -- 8xy4  ADD Vx, Vy
  | subReg (x y : RegIx)                     -- 8xy5  SUB Vx, Vy
  | shr (x y : RegIx)                        -- 8xy6  SHR Vx
  | subn (x y : RegIx)                       -- 8xy7  SUBN Vx, Vy
  | shl (x y : RegIx)                        -- 8xyE  SHL Vx
  | sneReg (x y : RegIx) (z : BitVec 4)      -- 9xyz  SNE Vx, Vy
  | ldI (nnn : BitVec 12)                    -- Annn  LD I, addr
  | jpV0 (nnn : BitVec 12)                   -- Bnnn  JP V0, addr
  | rnd (x : RegIx) (kk : Byte)              -- Cxkk  RND Vx, byte
  | drw (x y : RegIx) (n : BitVec 4)         -- Dxyn  DRW Vx, Vy, nibble
  | skp (x : RegIx)                          -- Ex9E  SKP Vx
  | sknp (x : RegIx)                         -- ExA1  SKNP Vx
  | ldVxDT (x : RegIx)                       -- Fx07  LD Vx, DT
  | ldVxK (x : RegIx)                        -- Fx0A  LD Vx, K
  | ldDTVx (x : RegIx)                       -- Fx15  LD DT, Vx
  | ldSTVx (x : RegIx)                       -- Fx18  LD ST, Vx
  | addIVx (x : RegIx)                       -- Fx1E  ADD I, Vx
  | ldFVx (x : RegIx)                        -- Fx29  LD F, Vx
  | ldBVx (x : RegIx)                        -- Fx33  LD B, Vx
  | storeRegs (x : RegIx)                    -- Fx55  LD [I], Vx
  | loadRegs (x : RegIx)                     -- Fx65  LD Vx, [I]
  deriving DecidableEq, Repr

end Sys2Proof
end

