-- ==== Sys2Proof/WellFormed.lean ====
section
/-! DEFINITION. Which terms of Instr are instructions of the hardware, and which are canonical. -/

namespace Sys2Proof

/-- The field types bound every operand; the one thing left to check is that the address of `SYS` does not spell
`CLS` or `RET`: row 1 is "`kk` not 0xE0, 0xEE" (R95, R97). -/
def Instr.wf : Instr → Bool
  | .sys nnn => nnn.extractLsb' 0 8 != 0xE0#8 && nnn.extractLsb' 0 8 != 0xEE#8
  | .cls _ | .ret _ | .jp _ | .call _ | .seByte _ _ | .sneByte _ _ | .seReg _ _ _ | .ldByte _ _ | .addByte _ _
  | .ldReg _ _ | .orReg _ _ | .andReg _ _ | .xorReg _ _ | .addReg _ _ | .subReg _ _ | .shr _ _ | .subn _ _ | .shl _ _
  | .sneReg _ _ _ | .ldI _ | .jpV0 _ | .rnd _ _ | .drw _ _ _ | .skp _ | .sknp _ | .ldVxDT _ | .ldVxK _ | .ldDTVx _
  | .ldSTVx _ | .addIVx _ | .ldFVx _ | .ldBVx _ | .storeRegs _ | .loadRegs _ => true

/-- The canonical encoding: the ignored bits of R96 (a), (b), (c) are 0. Whether a `SYS` word with `nnn` not 0 is canonical
the spec leaves open, and that every `SYS` is canonical here is the model's choice (DESIGN CHOICE, log 32). -/
def Instr.canonical : Instr → Bool
  | .cls z | .ret z | .seReg _ _ z | .sneReg _ _ z => z == 0
  | .shr _ y | .shl _ y => y == 0
  | .sys _ | .jp _ | .call _ | .seByte _ _ | .sneByte _ _ | .ldByte _ _ | .addByte _ _
  | .ldReg _ _ | .orReg _ _ | .andReg _ _ | .xorReg _ _ | .addReg _ _ | .subReg _ _ | .subn _ _
  | .ldI _ | .jpV0 _ | .rnd _ _ | .drw _ _ _ | .skp _ | .sknp _ | .ldVxDT _ | .ldVxK _ | .ldDTVx _
  | .ldSTVx _ | .addIVx _ | .ldFVx _ | .ldBVx _ | .storeRegs _ | .loadRegs _ => true

end Sys2Proof
end

