-- ==== Sys2Proof/Decode.lean ====
section
/-! DEFINITION. Instruction fields (R91), the total decoder (R93, R102), the encoder (R95), the table's masks. -/

namespace Sys2Proof

/-! ### Fields of a word (R91) -/

/-- `fam`, bits 15..12. -/
def famOf (w : Word) : BitVec 4 := w.extractLsb' 12 4

/-- Bits 11..8 as bits: the ignored field of family 0. -/
def hiNibble (w : Word) : BitVec 4 := w.extractLsb' 8 4

/-- `x`, bits 11..8: the first register. -/
def xOf (w : Word) : RegIx := (w.extractLsb' 8 4).toFin

/-- `y`, bits 7..4: the second register. -/
def yOf (w : Word) : RegIx := (w.extractLsb' 4 4).toFin

/-- `n`, bits 3..0. -/
def nOf (w : Word) : BitVec 4 := w.extractLsb' 0 4

/-- `kk`, bits 7..0. -/
def kkOf (w : Word) : Byte := w.extractLsb' 0 8

/-- `nnn`, bits 11..0. -/
def nnnOf (w : Word) : BitVec 12 := w.extractLsb' 0 12

/-- The byte at the lower address is the high half of the word (R64). -/
def wordOfBytes (hi lo : Byte) : Word := hi ++ lo

def hiByte (w : Word) : Byte := w.extractLsb' 8 8

def loByte (w : Word) : Byte := w.extractLsb' 0 8

/-! ### Decoding -/

/-- Why bytes are no instruction: an unknown word of family 8, E or F (R97), or fewer than two bytes. The
unknown words of family 0 are `SYS`, row 1 of the table (R98). -/
inductive Reject where
  | unknown8 (w : Word)
  | unknownE (w : Word)
  | unknownF (w : Word)
  | truncated (have_ : Nat)
  deriving DecidableEq, Repr

inductive Decoded where
  | instr (i : Instr)
  | reject (r : Reject)
  deriving DecidableEq, Repr

/-- Family 0 selects by `kk`; bits 11..8 are ignored (R93, R96). -/
def decode0 (w : Word) : Decoded :=
  if kkOf w = 0xE0#8 then .instr (.cls (hiNibble w))
  else if kkOf w = 0xEE#8 then .instr (.ret (hiNibble w))
  else .instr (.sys (nnnOf w))

/-- Family 8 selects by `n` (R93). -/
def decode8 (w : Word) : Decoded :=
  match nOf w with
  | 0x0#4 => .instr (.ldReg (xOf w) (yOf w))
  | 0x1#4 => .instr (.orReg (xOf w) (yOf w))
  | 0x2#4 => .instr (.andReg (xOf w) (yOf w))
  | 0x3#4 => .instr (.xorReg (xOf w) (yOf w))
  | 0x4#4 => .instr (.addReg (xOf w) (yOf w))
  | 0x5#4 => .instr (.subReg (xOf w) (yOf w))
  | 0x6#4 => .instr (.shr (xOf w) (yOf w))
  | 0x7#4 => .instr (.subn (xOf w) (yOf w))
  | 0xE#4 => .instr (.shl (xOf w) (yOf w))
  | _ => .reject (.unknown8 w)

/-- Family E selects by `kk` (R93). -/
def decodeE (w : Word) : Decoded :=
  if kkOf w = 0x9E#8 then .instr (.skp (xOf w))
  else if kkOf w = 0xA1#8 then .instr (.sknp (xOf w))
  else .reject (.unknownE w)

/-- Family F selects by `kk` (R93). -/
def decodeF (w : Word) : Decoded :=
  if kkOf w = 0x07#8 then .instr (.ldVxDT (xOf w))
  else if kkOf w = 0x0A#8 then .instr (.ldVxK (xOf w))
  else if kkOf w = 0x15#8 then .instr (.ldDTVx (xOf w))
  else if kkOf w = 0x18#8 then .instr (.ldSTVx (xOf w))
  else if kkOf w = 0x1E#8 then .instr (.addIVx (xOf w))
  else if kkOf w = 0x29#8 then .instr (.ldFVx (xOf w))
  else if kkOf w = 0x33#8 then .instr (.ldBVx (xOf w))
  else if kkOf w = 0x55#8 then .instr (.storeRegs (xOf w))
  else if kkOf w = 0x65#8 then .instr (.loadRegs (xOf w))
  else .reject (.unknownF w)

/-- `decode(w)` of R102: total, reads nothing but the word, never faults (R99, R123). -/
def decode (w : Word) : Decoded :=
  match famOf w with
  | 0x0#4 => decode0 w
  | 0x1#4 => .instr (.jp (nnnOf w))
  | 0x2#4 => .instr (.call (nnnOf w))
  | 0x3#4 => .instr (.seByte (xOf w) (kkOf w))
  | 0x4#4 => .instr (.sneByte (xOf w) (kkOf w))
  | 0x5#4 => .instr (.seReg (xOf w) (yOf w) (nOf w))
  | 0x6#4 => .instr (.ldByte (xOf w) (kkOf w))
  | 0x7#4 => .instr (.addByte (xOf w) (kkOf w))
  | 0x8#4 => decode8 w
  | 0x9#4 => .instr (.sneReg (xOf w) (yOf w) (nOf w))
  | 0xA#4 => .instr (.ldI (nnnOf w))
  | 0xB#4 => .instr (.jpV0 (nnnOf w))
  | 0xC#4 => .instr (.rnd (xOf w) (kkOf w))
  | 0xD#4 => .instr (.drw (xOf w) (yOf w) (nOf w))
  | 0xE#4 => decodeE w
  | _ => decodeF w

/-- The decoder over bytes as memory holds them, with the bytes left over. -/
def decodeBytes : List Byte → Decoded × List Byte
  | hi :: lo :: rest => (decode (wordOfBytes hi lo), rest)
  | bs => (.reject (.truncated bs.length), [])

/-! ### Encoding (R92, R95) -/

/-- A register number as the bits of its field. -/
def regBits (r : RegIx) : BitVec 4 := BitVec.ofFin r

/-- Format NNN (R92). -/
def packNNN (fam : BitVec 4) (nnn : BitVec 12) : Word := fam ++ nnn

/-- Formats XKK and XSS (R92). -/
def packXKK (fam x : BitVec 4) (kk : Byte) : Word := fam ++ x ++ kk

/-- Formats XYN and XYS (R92). -/
def packXYN (fam x y n : BitVec 4) : Word := fam ++ x ++ y ++ n

/-- The word of an instruction, written from the table's patterns (R95). -/
def encode : Instr → Word
  | .sys nnn => packNNN 0x0 nnn
  | .cls z => packXKK 0x0 z 0xE0
  | .ret z => packXKK 0x0 z 0xEE
  | .jp nnn => packNNN 0x1 nnn
  | .call nnn => packNNN 0x2 nnn
  | .seByte x kk => packXKK 0x3 (regBits x) kk
  | .sneByte x kk => packXKK 0x4 (regBits x) kk
  | .seReg x y z => packXYN 0x5 (regBits x) (regBits y) z
  | .ldByte x kk => packXKK 0x6 (regBits x) kk
  | .addByte x kk => packXKK 0x7 (regBits x) kk
  | .ldReg x y => packXYN 0x8 (regBits x) (regBits y) 0x0
  | .orReg x y => packXYN 0x8 (regBits x) (regBits y) 0x1
  | .andReg x y => packXYN 0x8 (regBits x) (regBits y) 0x2
  | .xorReg x y => packXYN 0x8 (regBits x) (regBits y) 0x3
  | .addReg x y => packXYN 0x8 (regBits x) (regBits y) 0x4
  | .subReg x y => packXYN 0x8 (regBits x) (regBits y) 0x5
  | .shr x y => packXYN 0x8 (regBits x) (regBits y) 0x6
  | .subn x y => packXYN 0x8 (regBits x) (regBits y) 0x7
  | .shl x y => packXYN 0x8 (regBits x) (regBits y) 0xE
  | .sneReg x y z => packXYN 0x9 (regBits x) (regBits y) z
  | .ldI nnn => packNNN 0xA nnn
  | .jpV0 nnn => packNNN 0xB nnn
  | .rnd x kk => packXKK 0xC (regBits x) kk
  | .drw x y n => packXYN 0xD (regBits x) (regBits y) n
  | .skp x => packXKK 0xE (regBits x) 0x9E
  | .sknp x => packXKK 0xE (regBits x) 0xA1
  | .ldVxDT x => packXKK 0xF (regBits x) 0x07
  | .ldVxK x => packXKK 0xF (regBits x) 0x0A
  | .ldDTVx x => packXKK 0xF (regBits x) 0x15
  | .ldSTVx x => packXKK 0xF (regBits x) 0x18
  | .addIVx x => packXKK 0xF (regBits x) 0x1E
  | .ldFVx x => packXKK 0xF (regBits x) 0x29
  | .ldBVx x => packXKK 0xF (regBits x) 0x33
  | .storeRegs x => packXKK 0xF (regBits x) 0x55
  | .loadRegs x => packXKK 0xF (regBits x) 0x65

/-- The instruction's bytes in memory order (R64). -/
def encodeBytes (i : Instr) : List Byte := [hiByte (encode i), loByte (encode i)]

/-! ### The opcode map's mask and match columns (R95) -/

/-- Column "mask" of the instruction's row. -/
def rowMask : Instr → Word
  | .sys _ | .jp _ | .call _ | .seByte _ _ | .sneByte _ _ | .seReg _ _ _ | .ldByte _ _ | .addByte _ _
  | .sneReg _ _ _ | .ldI _ | .jpV0 _ | .rnd _ _ | .drw _ _ _ => 0xF000
  | .ldReg _ _ | .orReg _ _ | .andReg _ _ | .xorReg _ _ | .addReg _ _ | .subReg _ _ | .shr _ _ | .subn _ _
  | .shl _ _ => 0xF00F
  | .cls _ | .ret _ | .skp _ | .sknp _ | .ldVxDT _ | .ldVxK _ | .ldDTVx _ | .ldSTVx _ | .addIVx _ | .ldFVx _
  | .ldBVx _ | .storeRegs _ | .loadRegs _ => 0xF0FF

/-- Column "match" of the instruction's row. -/
def rowMatch : Instr → Word
  | .sys _ => 0x0000
  | .cls _ => 0x00E0
  | .ret _ => 0x00EE
  | .jp _ => 0x1000
  | .call _ => 0x2000
  | .seByte _ _ => 0x3000
  | .sneByte _ _ => 0x4000
  | .seReg _ _ _ => 0x5000
  | .ldByte _ _ => 0x6000
  | .addByte _ _ => 0x7000
  | .ldReg _ _ => 0x8000
  | .orReg _ _ => 0x8001
  | .andReg _ _ => 0x8002
  | .xorReg _ _ => 0x8003
  | .addReg _ _ => 0x8004
  | .subReg _ _ => 0x8005
  | .shr _ _ => 0x8006
  | .subn _ _ => 0x8007
  | .shl _ _ => 0x800E
  | .sneReg _ _ _ => 0x9000
  | .ldI _ => 0xA000
  | .jpV0 _ => 0xB000
  | .rnd _ _ => 0xC000
  | .drw _ _ _ => 0xD000
  | .skp _ => 0xE09E
  | .sknp _ => 0xE0A1
  | .ldVxDT _ => 0xF007
  | .ldVxK _ => 0xF00A
  | .ldDTVx _ => 0xF015
  | .ldSTVx _ => 0xF018
  | .addIVx _ => 0xF01E
  | .ldFVx _ => 0xF029
  | .ldBVx _ => 0xF033
  | .storeRegs _ => 0xF055
  | .loadRegs _ => 0xF065

/-! ### The host's question about one word -/

/-- The word the opcode table numbers `w`, its bits at and above `nbits` being 0. -/
def tableWord (nbits w : Nat) : Word := BitVec.ofNat 16 (w % 2 ^ nbits)

/-- What the decoder reads from the table word laid out in memory order: high byte first (R64). -/
def decodeTableWord (nbits w : Nat) : Option Instr :=
  match (decodeBytes [hiByte (tableWord nbits w), loByte (tableWord nbits w)]).1 with
  | .instr i => some i
  | .reject _ => none

end Sys2Proof
end

