-- ==== Sys2Proof/Config.lean ====
section
/-! DEFINITION. The fixed parameters of the hardware (R4) and its one free value, the random byte (R5). -/

namespace Sys2Proof.Config

/-- `MEM_SIZE`: addresses 0x000 to 0xFFF (R4, R60). -/
@[simp] abbrev memSize : Nat := 4096

/-- `PROGRAM_BASE`: a program image is loaded from here (R4, R74). -/
@[simp] abbrev programBase : Nat := 0x200

/-- `PROGRAM_MAX_BYTES` = 4096 - 0x200 (R4, R74). -/
@[simp] abbrev programMaxBytes : Nat := 3584

/-- `RESET_PC` (R4, R37). -/
@[simp] abbrev resetPc : Word := 0x200

/-- `FLAG_REG`: register 15 doubles as the flag (R4, R22). -/
@[simp] abbrev flagReg : RegIx := 15

/-- `GLYPH_HEIGHT`: bytes of one glyph (R4, R61). -/
@[simp] abbrev glyphHeight : Nat := 5

/-- `FB_W` and `FB_H`: columns and rows of the framebuffer (R4, R210). -/
@[simp] abbrev fbWidth : Nat := 64
@[simp] abbrev fbHeight : Nat := 32

/-- The random byte `rnd` of the step whose number is the argument: any byte, with no law relating one
step's byte to another's (R5, R171, D20). It has no body, so nothing can be proved of its value (log 4). -/
opaque rndByte : Nat → Byte

end Sys2Proof.Config
end

