-- ==== Sys2Proof/Machine/State.lean ====
section
/-! DEFINITION. The core's state (R20), its fault latch and reports, and the state after reset (R37). -/

namespace Sys2Proof.Machine

/-- The reasons a step could stop outside the machine: there are none. Every fault of the spec is latched in
`State.fault` and is a next state (R252, R130), a halted core steps to itself (R121), and an unknown word is a
reported no-op (R126), so no meaning of this model raises a host-level fault (log 5). -/
inductive Fault : Type
  deriving DecidableEq, Repr

/-- The reasons an instruction has no meaning. -/
inductive Refusal where
  /-- Only an arm of `exec` whose instruction has no meaning yet would raise it, naming its mnemonic; none is left.
  Safe: the run stops. -/
  | notModelled (mnemonic : String)
  deriving DecidableEq, Repr

/-- The five fault causes (R251). -/
inductive FaultCode where
  | fetchOob
  | memOob
  | stackOverflow
  | stackUnderflow
  | keyOob
  deriving DecidableEq, Repr

/-- What the FAULT latch holds when it is not `none`: a code and a 16-bit information word (R33, R251). -/
structure FaultRecord where
  code : FaultCode
  info : Word
  deriving DecidableEq, Repr

/-- The recoverable report of a step: `unknown_word` and `unknown_pc` (R126). -/
structure UnknownReport where
  word : Word
  pc : Word
  deriving DecidableEq, Repr

/-- All the state of R20, then the outputs of the latest step (R9, R35), then the model's own counter. -/
structure State where
  /-- `V[0..15]`; `V[15]` is also the flag VF (R21, R22). -/
  v : Vector Byte 16
  /-- The index register (R24). -/
  i : Word
  /-- The program counter (R25). -/
  pc : Word
  /-- `STACK[0..15]` (R27). -/
  stack : Vector Word 16
  /-- The number of stack entries in use, 0..16 (R27). -/
  sp : Fin 17
  /-- The delay timer (R28). -/
  dt : Byte
  /-- The sound timer (R29). -/
  st : Byte
  /-- `MEM`: the bytes that differ from the reset content, addresses rising (R32, R60, log 10). -/
  mem : List Host.Cell
  /-- `FB`: 32 rows of 64 cells, column x of a row at bit x; a set bit is a lit cell (R31, R210). -/
  fb : Vector (BitVec 64) 32
  /-- The key latch the host drives, bit k for key k, as the coming step samples it (R30, R235). -/
  keys : BitVec 16
  /-- The FAULT latch (R33). -/
  fault : Option FaultRecord
  /-- Output `beep` of the latest step (R231, log 14). -/
  beep : Bool
  /-- Outputs `unknown`, `unknown_word`, `unknown_pc` of the latest step (R126, log 14). -/
  unknown : Option UnknownReport
  /-- The model's own: how many random bytes have passed; the coming step's byte is `Config.rndByte draws` (log 4). -/
  draws : Nat
  deriving DecidableEq, Repr

/-- What a meaning and a step answer. -/
abbrev Result := Host.Outcome State Fault Refusal

/-- The machine after reset with the default `GLYPH_ROM` (R37, R280, R5): nothing is listed in memory. `keys` and `draws`
are not the core's: logs 2 and 4. -/
def State.reset : State where
  v := Vector.replicate 16 0
  i := 0
  pc := Config.resetPc
  stack := Vector.replicate 16 0
  sp := 0
  dt := 0
  st := 0
  mem := []
  fb := Vector.replicate 32 0
  keys := 0
  fault := none
  beep := false
  unknown := none
  draws := 0

end Sys2Proof.Machine
end

