-- ==== Sys2Proof/Machine/Memory.lean ====
section
/-! DEFINITION. The glyph set, and the 4096-byte memory as a canonical list of the bytes that differ from the default
reset content. -/

namespace Sys2Proof.Machine

/-- `MEM` as plain data. -/
abbrev Memory := List Host.Cell

/-- The bytes of the default `GLYPH_ROM`, 16 glyphs of 5 in digit order (R62, decision D25: the spec's general
knowledge, log 9). -/
def glyphRom : List Byte :=
  [0xF0, 0x90, 0x90, 0x90, 0xF0,  0x20, 0x60, 0x20, 0x20, 0x70] ++
  [0xF0, 0x10, 0xF0, 0x80, 0xF0,  0xF0, 0x10, 0xF0, 0x10, 0xF0] ++
  [0x90, 0x90, 0xF0, 0x10, 0x10,  0xF0, 0x80, 0xF0, 0x10, 0xF0] ++
  [0xF0, 0x80, 0xF0, 0x90, 0xF0,  0xF0, 0x10, 0x20, 0x40, 0x40] ++
  [0xF0, 0x90, 0xF0, 0x90, 0xF0,  0xF0, 0x90, 0xF0, 0x10, 0xF0] ++
  [0xF0, 0x90, 0xF0, 0x90, 0x90,  0xE0, 0x90, 0xE0, 0x90, 0xE0] ++
  [0xF0, 0x80, 0x80, 0x80, 0xF0,  0xE0, 0x90, 0x90, 0x90, 0xE0] ++
  [0xF0, 0x80, 0xF0, 0x80, 0xF0,  0xF0, 0x80, 0xF0, 0x80, 0x80]

/-- The model's argument `GLYPH_ROM` (R5, R62): the 80 bytes reset puts at 0x000. -/
abbrev GlyphRom := Vector Byte 80

/-- Its default (R62, decision D25, log 9). -/
def GlyphRom.default : GlyphRom := ⟨glyphRom.toArray, by decide⟩

/-- What an unlisted address reads as: the reset content with the default glyphs at 0x000..0x04F, and 0 elsewhere (R37,
R61). A machine with another `GLYPH_ROM` lists the glyph bytes that differ (log 10). -/
def unlisted (a : Nat) : Byte := glyphRom.getD a 0

/-- The canonical form from address `lo` on: addresses strictly rising and inside the 4096 bytes, no entry equal to
what its address reads as unlisted. -/
def Memory.wfFrom (lo : Nat) : Memory → Bool
  | [] => true
  | (a, b) :: m => decide (lo ≤ a) && decide (a < Config.memSize) && b != unlisted a && Memory.wfFrom (a + 1) m

/-- The canonical form, so that equal memories are equal lists. -/
def Memory.wf (m : Memory) : Bool := Memory.wfFrom 0 m

/-- One byte (R63). Every access of the machine has been checked against 0xFFF before it gets here. -/
def Memory.read : Memory → Nat → Byte
  | [], a => unlisted a
  | (b, u) :: m, a => if a = b then u else Memory.read m a

/-- The entry `(a, u)` put in its place, over any entry of `a`. -/
def Memory.insert (a : Nat) (u : Byte) : Memory → Memory
  | [] => [(a, u)]
  | (b, w) :: m =>
    if a < b then (a, u) :: (b, w) :: m
    else if a = b then (a, u) :: m
    else (b, w) :: Memory.insert a u m

/-- No entry of `a`: the address reads as its reset content. -/
def Memory.erase (a : Nat) : Memory → Memory
  | [] => []
  | (b, w) :: m => if a = b then Memory.erase a m else (b, w) :: Memory.erase a m

/-- One byte stored (R63), keeping the canonical form. -/
def Memory.write (m : Memory) (a : Nat) (u : Byte) : Memory :=
  if u = unlisted a then Memory.erase a m else Memory.insert a u m

/-- Bytes stored at rising addresses from `a`, the first first (R64, R66). -/
def Memory.writeList (m : Memory) (a : Nat) : List Byte → Memory
  | [] => m
  | u :: us => Memory.writeList (Memory.write m a u) (a + 1) us

/-- The machine after reset with the glyph set `rom` (R5, R37, R62): `State.reset` is the one with the default. -/
def State.resetWith (rom : GlyphRom) : State := { State.reset with mem := Memory.writeList [] 0 rom.toList }

end Sys2Proof.Machine
end

