-- ==== Sys2Proof/Machine/Flags.lean ====
section
/-! DEFINITION. The values the flag register takes (R22, R166 to R170, R213). -/

namespace Sys2Proof.Machine

/-- A Boolean as a flag: 1 or 0 (R7). -/
def flagOf (b : Bool) : Byte := if b then 1 else 0

/-- `ADD Vx,Vy`: 1 iff the unsigned sum exceeds 255 (R166). -/
def carryFlag (a b : Byte) : Byte := flagOf (decide (a.toNat + b.toNat > 255))

/-- `SUB`, `SUBN`: 1 iff the minuend is strictly greater than the subtrahend (R167, R169). -/
def greaterFlag (minuend subtrahend : Byte) : Byte := flagOf (decide (minuend.toNat > subtrahend.toNat))

/-- `SHR`: the old bit 0, masked (R168, decision D6). -/
def shrFlag (a : Byte) : Byte := a &&& 0x01

/-- `SHL`: the old bit 7, masked and NOT normalised: 0 or 0x80 (R170, decision D6, log 16). -/
def shlFlag (a : Byte) : Byte := a &&& 0x80

/-- `DRW`: 1 iff a cell was lit before its toggle (R213). -/
def collisionFlag (hit : Bool) : Byte := flagOf hit

end Sys2Proof.Machine
end

