-- ==== Sys2Proof/Machine/Operands.lean ====
section
/-! DEFINITION. Operand forms: registers, immediates, data addresses through I, glyph addresses, digits. -/

namespace Sys2Proof.Machine

/-- `V[r]` (R8, R21). -/
def State.reg (s : State) (r : RegIx) : Byte := s.v[r.val]

/-- A 12-bit address as a 16-bit value, zero-extended (R94). -/
def addrOf (nnn : BitVec 12) : Word := nnn.setWidth 16

/-- A byte as a 16-bit value, zero-extended (R7, R94). -/
def zext16 (b : Byte) : Word := b.setWidth 16

/-- The one data addressing mode: `EA = I + k` over the unbounded integers (43_index_memory.md, R63). -/
abbrev State.dataAddr (s : State) (k : Nat) : Nat := s.i.toNat + k

/-- One byte of memory (R8 `MemRead`). -/
def State.readByte (s : State) (a : Nat) : Byte := Memory.read s.mem a

/-- The address of the glyph of a digit: `5 * d`, with no masking of `d` (R192, decision D15, log 19). -/
def glyphAddr (d : Byte) : Word := BitVec.ofNat 16 (Config.glyphHeight * d.toNat)

/-- The decimal digits of a byte: hundreds, tens, ones (R193). -/
def hundreds (b : Byte) : Byte := BitVec.ofNat 8 (b.toNat / 100)
def tens (b : Byte) : Byte := BitVec.ofNat 8 (b.toNat / 10 % 10)
def ones (b : Byte) : Byte := BitVec.ofNat 8 (b.toNat % 10)

/-- The three digits in the order they are stored (R193). -/
def digitsOf (b : Byte) : List Byte := [hundreds b, tens b, ones b]

/-- `V[0] .. V[n-1]`, in register order (R194). -/
def State.firstRegs (s : State) (n : Nat) : List Byte := s.v.toList.take n

/-- The random byte sampled for this step (R5, R120, log 4). -/
def State.rnd (s : State) : Byte := Config.rndByte s.draws

/-- Is key `k` set in this step's sample (R235)? -/
def State.keySet (s : State) (k : Nat) : Bool := s.keys.getLsbD k

/-- The lowest-indexed set key, if any key is set (R238). -/
def State.lowestKey (s : State) : Option Nat := (List.range 16).find? s.keySet

/-- The lowest out-of-range address of a range that starts at I and runs past 0xFFF: `max(I, 0x1000)` (R63, R251). -/
def State.lowestOob (s : State) : Word := if s.i.toNat < Config.memSize then 0x1000 else s.i

end Sys2Proof.Machine
end

