-- ==== Sys2Proof/Machine/Ops.lean ====
section
/-! DEFINITION. The named operations the meanings share: registers, pc, stack, memory ranges, faults, tick, fetch. -/

namespace Sys2Proof.Machine

/-! ### Registers -/

/-- `V[r] <- b` (R8). -/
def State.setReg (s : State) (r : RegIx) (b : Byte) : State := { s with v := s.v.set r.val b }

/-- The result to `V[x]`, then the flag to `V[15]`, written last, so that with `x = 15` the flag remains (R23,
decision D5, log 15). -/
def State.setRegFlag (s : State) (x : RegIx) (result flag : Byte) : State :=
  { s with v := (s.v.set x.val result).set 15 flag }

/-- `I <- w` (R24). -/
def State.setIndex (s : State) (w : Word) : State := { s with i := w }

/-- `DT <- b` (R28). -/
def State.setDelay (s : State) (b : Byte) : State := { s with dt := b }

/-- `ST <- b` (R29). -/
def State.setSound (s : State) (b : Byte) : State := { s with st := b }

/-! ### The program counter (R125) -/

/-- The sequential class: `pc <- pc + 2`. -/
def State.advance (s : State) : State := { s with pc := s.pc + 2 }

/-- The skip class: `pc + 4` if the condition holds, else `pc + 2`. -/
def State.skipIf (s : State) (cond : Bool) : State := { s with pc := s.pc + (if cond then 4 else 2) }

/-- The jump class: the target, no 2 added. -/
def State.jumpTo (s : State) (target : Word) : State := { s with pc := target }

/-! ### Faults and reports -/

/-- Taking a fault (R252): nothing of the state changes but FAULT, and `beep` and `unknown` are false; `pc` still
addresses the faulting instruction and there is no handler to go to. There is no return from a fault (R256). -/
def State.raise (s : State) (code : FaultCode) (info : Word) : State :=
  { s with fault := some ⟨code, info⟩, beep := false, unknown := none }

/-- An unknown opcode (R126): a no-op that reports the word and its address, then `pc <- pc + 2`. -/
def State.unknownOpcode (s : State) (w : Word) : State :=
  { s with unknown := some ⟨w, s.pc⟩, pc := s.pc + 2 }

/-- An access to the `n` bytes at `I`: all of them are checked before any is touched (R63, R251); with `n = 0` there
is nothing to check (R213). -/
def State.withRange (s : State) (n : Nat) (body : State) : State :=
  if 0 < n ∧ Config.memSize < s.dataAddr n then s.raise .memOob s.lowestOob else body

/-- A key test of `SKP` and `SKNP` needs a key code 0..15 (R236, R237, decision D4, log 8). -/
def State.withKey (s : State) (key : Byte) (body : State) : State :=
  if 15 < key.toNat then s.raise .keyOob (zext16 key) else body

/-! ### Call stack (R27) -/

/-- `CALL` (R143): the address of this instruction is pushed, then the jump. -/
def State.callTo (s : State) (target : Word) : State :=
  if h : s.sp.val < 16 then
    { s with stack := s.stack.set s.sp.val s.pc, sp := ⟨s.sp.val + 1, by omega⟩, pc := target }
  else s.raise .stackOverflow s.pc

/-- `RET` (R141): the popped address plus 2; the entry itself stays. -/
def State.returnFromCall (s : State) : State :=
  if h : 0 < s.sp.val then
    { s with sp := ⟨s.sp.val - 1, by omega⟩, pc := s.stack[s.sp.val - 1]'(by omega) + 2 }
  else s.raise .stackUnderflow s.pc

/-! ### Memory ranges (R66) -/

/-- Bytes stored at rising addresses from `a` (R8 `MemWrite`). -/
def State.storeBytes (s : State) (a : Nat) (us : List Byte) : State := { s with mem := Memory.writeList s.mem a us }

/-- `V[k] <- MEM[a + k]` for `k` from 0 to `n - 1` (R195). -/
def readRegs (m : Memory) (a : Nat) : Nat → Vector Byte 16 → Vector Byte 16
  | 0, v => v
  | n + 1, v => (readRegs m a n v).setIfInBounds n (Memory.read m (a + n))

def State.loadFrom (s : State) (a n : Nat) : State := { s with v := readRegs s.mem a n s.v }

/-! ### The framebuffer -/

def State.setScreen (s : State) (fb : Vector (BitVec 64) 32) : State := { s with fb := fb }

/-! ### The step around an instruction -/

/-- The outputs of a step are pulses: they start false (R126, R231). -/
def State.clearOutputs (s : State) : State := { s with beep := false, unknown := none }

/-- One count down, never below 0 (R28, R29, R230). -/
def countDown (t : Byte) : Byte := if t = 0 then 0 else t - 1

/-- `tick()`: both timers count down, and `beep` is raised exactly when ST goes from 1 to 0 (R230, R231). -/
def State.tick (s : State) : State :=
  { s with dt := countDown s.dt, st := countDown s.st, beep := decide (s.st = 1) }

/-- The next step samples another random byte (R5, R120, log 4). -/
def State.nextDraw (s : State) : State := { s with draws := s.draws + 1 }

/-- After execute: the tick, unless the instruction faulted (R127, R128, R130). -/
def State.endStep (s : State) : State := if s.fault.isSome then s else s.tick.nextDraw

/-- `endStep` on what an instruction answered. -/
def endResult : Result → Result
  | .next s => .next s.endStep
  | .fault r => .fault r
  | .refused r => .refused r

/-- The word at `pc`, high byte first, if both its bytes exist (R64, R122). -/
def State.fetch (s : State) : Option Word :=
  if s.pc.toNat ≤ 0xFFE then some (wordOfBytes (s.readByte s.pc.toNat) (s.readByte (s.pc.toNat + 1))) else none

end Sys2Proof.Machine
end

