-- ==== Sys2Proof/Machine/Alu.lean ====
section
/-! DEFINITION. Register moves, arithmetic, logic, shifts, random (42_alu.md). Operands are read first (R23). -/

namespace Sys2Proof.Machine

/-- `LD Vx, byte` (R160). -/
def execLdByte (x : RegIx) (kk : Byte) (s : State) : Result := .next (s.setReg x kk).advance

/-- `ADD Vx, byte` (R161): no carry flag (decision D16, log 18). -/
def execAddByte (x : RegIx) (kk : Byte) (s : State) : Result := .next (s.setReg x (s.reg x + kk)).advance

/-- `LD Vx, Vy` (R162). -/
def execLdReg (x y : RegIx) (s : State) : Result := .next (s.setReg x (s.reg y)).advance

/-- `OR Vx, Vy` (R163): VF untouched (decision D16, log 18). -/
def execOrReg (x y : RegIx) (s : State) : Result := .next (s.setReg x (s.reg x ||| s.reg y)).advance

/-- `AND Vx, Vy` (R164). -/
def execAndReg (x y : RegIx) (s : State) : Result := .next (s.setReg x (s.reg x &&& s.reg y)).advance

/-- `XOR Vx, Vy` (R165). -/
def execXorReg (x y : RegIx) (s : State) : Result := .next (s.setReg x (s.reg x ^^^ s.reg y)).advance

/-- `ADD Vx, Vy` (R166). -/
def execAddReg (x y : RegIx) (s : State) : Result :=
  .next (s.setRegFlag x (s.reg x + s.reg y) (carryFlag (s.reg x) (s.reg y))).advance

/-- `SUB Vx, Vy` (R167): the minuend is `V[x]`. -/
def execSubReg (x y : RegIx) (s : State) : Result :=
  .next (s.setRegFlag x (s.reg x - s.reg y) (greaterFlag (s.reg x) (s.reg y))).advance

/-- `SHR Vx` (R168): `V[x]` in place, `V[y]` plays no part (decision D7, log 16). -/
def execShr (x _y : RegIx) (s : State) : Result :=
  .next (s.setRegFlag x (s.reg x >>> 1) (shrFlag (s.reg x))).advance

/-- `SUBN Vx, Vy` (R169): the minuend is `V[y]`. -/
def execSubn (x y : RegIx) (s : State) : Result :=
  .next (s.setRegFlag x (s.reg y - s.reg x) (greaterFlag (s.reg y) (s.reg x))).advance

/-- `SHL Vx` (R170): the flag is 0 or 0x80 (decision D6, log 16). -/
def execShl (x _y : RegIx) (s : State) : Result :=
  .next (s.setRegFlag x (s.reg x <<< 1) (shlFlag (s.reg x))).advance

/-- `RND Vx, byte` (R171). -/
def execRnd (x : RegIx) (kk : Byte) (s : State) : Result := .next (s.setReg x (s.rnd &&& kk)).advance

end Sys2Proof.Machine
end

