-- ==== Sys2Proof/Machine/Control.lean ====
section
/-! DEFINITION. Control transfer (41_control_flow.md): SYS, RET, JP, CALL, SE, SNE, JP V0. -/

namespace Sys2Proof.Machine

/-- `SYS addr` (R140): an unknown opcode of family 0; its word is `0nnn`. -/
def execSys (nnn : BitVec 12) (s : State) : Result := .next (s.unknownOpcode (addrOf nnn))

/-- `RET` (R141). -/
def execRet (s : State) : Result := .next s.returnFromCall

/-- `JP addr` (R142). -/
def execJp (nnn : BitVec 12) (s : State) : Result := .next (s.jumpTo (addrOf nnn))

/-- `CALL addr` (R143). -/
def execCall (nnn : BitVec 12) (s : State) : Result := .next (s.callTo (addrOf nnn))

/-- `SE Vx, byte` (R144). -/
def execSeByte (x : RegIx) (kk : Byte) (s : State) : Result := .next (s.skipIf (s.reg x == kk))

/-- `SNE Vx, byte` (R145). -/
def execSneByte (x : RegIx) (kk : Byte) (s : State) : Result := .next (s.skipIf (s.reg x != kk))

/-- `SE Vx, Vy` (R146). -/
def execSeReg (x y : RegIx) (s : State) : Result := .next (s.skipIf (s.reg x == s.reg y))

/-- `SNE Vx, Vy` (R147). -/
def execSneReg (x y : RegIx) (s : State) : Result := .next (s.skipIf (s.reg x != s.reg y))

/-- `JP V0, addr` (R148): a jump, so no 2 is added (decision D12, log 21). -/
def execJpV0 (nnn : BitVec 12) (s : State) : Result := .next (s.jumpTo (addrOf nnn + zext16 (s.reg 0)))

end Sys2Proof.Machine
end

