-- ==== Sys2Proof/Machine/Display.lean ====
section
/-! DEFINITION. The display compositor (44_display.md): cells, the XOR blit, CLS, DRW. -/

namespace Sys2Proof.Machine

/-- Column `cx`, row `cy`, both wrapping at the edges (R210): is the cell lit? -/
def litAt (fb : Vector (BitVec 64) 32) (cx cy : Nat) : Bool :=
  (fb[cy % 32]'(Nat.mod_lt _ (by decide))).getLsbD (cx % 64)

/-- `FB[c]`, `c = 64*y + x` (R31). -/
def State.cell (s : State) (c : Nat) : Bool := litAt s.fb (c % 64) (c / 64)

/-- The cell of column `cx` and row `cy` toggled (R212). -/
def toggleAt (fb : Vector (BitVec 64) 32) (cx cy : Nat) : Vector (BitVec 64) 32 :=
  fb.set (cy % 32) ((fb[cy % 32]'(Nat.mod_lt _ (by decide))) ^^^ BitVec.twoPow 64 (cx % 64)) (Nat.mod_lt _ (by decide))

/-- What `draw` carries from one sprite bit to the next: the screen, and whether a lit cell has been hit. -/
structure Canvas where
  fb : Vector (BitVec 64) 32
  hit : Bool
  deriving DecidableEq, Repr

/-- One set sprite bit: collision if the target was lit before the toggle (R212). -/
def plot (c : Canvas) (cx cy : Nat) : Canvas := ⟨toggleAt c.fb cx cy, c.hit || litAt c.fb cx cy⟩

/-- Sprite bit `col` of a row byte, bit 7 leftmost (R212). -/
def spriteBit (b : Byte) (col : Nat) : Bool := b.getLsbD (7 - col)

/-- The first `cols` columns of one sprite row (R212's inner loop). -/
def drawCols (x0 y : Nat) (b : Byte) : Nat → Canvas → Canvas
  | 0, c => c
  | col + 1, c =>
    if spriteBit b col then plot (drawCols x0 y b col c) (x0 + col) y else drawCols x0 y b col c

/-- The first `rows` rows of the sprite at address `a` (R212's outer loop). -/
def drawRows (m : Memory) (a x0 y0 : Nat) : Nat → Canvas → Canvas
  | 0, c => c
  | row + 1, c => drawCols x0 (y0 + row) (Memory.read m (a + row)) 8 (drawRows m a x0 y0 row c)

/-- `draw(x0, y0, h)` on the state (R212). -/
def State.draw (s : State) (x0 y0 h : Nat) : Canvas := drawRows s.mem s.i.toNat x0 y0 h ⟨s.fb, false⟩

/-- The blit with its collision flag and the advance: the coordinates are read from a state whose VF is already
zeroed (R213, decision D17, log 17). -/
def State.drawSprite (s : State) (x y : RegIx) (h : Nat) : State :=
  let c := s.draw (s.reg x).toNat (s.reg y).toNat h
  ((s.setScreen c.fb).setReg Config.flagReg (collisionFlag c.hit)).advance

/-- `CLS` (R211). -/
def execCls (s : State) : Result := .next (s.setScreen (Vector.replicate 32 0)).advance

/-- `DRW Vx, Vy, nibble` (R213). -/
def execDrw (x y : RegIx) (n : BitVec 4) (s : State) : Result :=
  .next (s.withRange n.toNat ((s.setReg Config.flagReg 0).drawSprite x y n.toNat))

end Sys2Proof.Machine
end

