-- ==== Sys2Proof/Machine/Index.lean ====
section
/-! DEFINITION. Index register and memory instructions (43_index_memory.md). None changes I as part of an access. -/

namespace Sys2Proof.Machine

/-- `LD I, addr` (R190). -/
def execLdI (nnn : BitVec 12) (s : State) : Result := .next (s.setIndex (addrOf nnn)).advance

/-- `ADD I, Vx` (R191): 16-bit wrap, no flag (decision D14, log 18). -/
def execAddIVx (x : RegIx) (s : State) : Result := .next (s.setIndex (s.i + zext16 (s.reg x))).advance

/-- `LD F, Vx` (R192). -/
def execLdFVx (x : RegIx) (s : State) : Result := .next (s.setIndex (glyphAddr (s.reg x))).advance

/-- `LD B, Vx` (R193): the decimal digits to `I`, `I+1`, `I+2`. -/
def execLdBVx (x : RegIx) (s : State) : Result :=
  .next (s.withRange 3 (s.storeBytes (s.dataAddr 0) (digitsOf (s.reg x))).advance)

/-- `LD [I], Vx` (R194): `V[0]` to `V[x]`, inclusive; I unchanged (decision D13, log 20). -/
def execStoreRegs (x : RegIx) (s : State) : Result :=
  .next (s.withRange (x.val + 1) (s.storeBytes (s.dataAddr 0) (s.firstRegs (x.val + 1))).advance)

/-- `LD Vx, [I]` (R195): the inverse, over the same inclusive range. -/
def execLoadRegs (x : RegIx) (s : State) : Result :=
  .next (s.withRange (x.val + 1) (s.loadFrom (s.dataAddr 0) (x.val + 1)).advance)

end Sys2Proof.Machine
end

