-- ==== Sys2Proof/Machine/TimerKey.lean ====
section
/-! DEFINITION. Timer and key-latch instructions (45_timers_input.md). The tick of their step comes after them. -/

namespace Sys2Proof.Machine

/-- `LD Vx, DT` (R232): the value before this step's tick. -/
def execLdVxDT (x : RegIx) (s : State) : Result := .next (s.setReg x s.dt).advance

/-- `LD DT, Vx` (R233). -/
def execLdDTVx (x : RegIx) (s : State) : Result := .next (s.setDelay (s.reg x)).advance

/-- `LD ST, Vx` (R234). -/
def execLdSTVx (x : RegIx) (s : State) : Result := .next (s.setSound (s.reg x)).advance

/-- `SKP Vx` (R236). -/
def execSkp (x : RegIx) (s : State) : Result :=
  .next (s.withKey (s.reg x) (s.skipIf (s.keySet (s.reg x).toNat)))

/-- `SKNP Vx` (R237). -/
def execSknp (x : RegIx) (s : State) : Result :=
  .next (s.withKey (s.reg x) (s.skipIf (!s.keySet (s.reg x).toNat)))

/-- `LD Vx, K` (R238): no key set is a stall that changes nothing, else the lowest-indexed set key. -/
def execLdVxK (x : RegIx) (s : State) : Result :=
  match s.lowestKey with
  | none => .next s
  | some k => .next (s.setReg x (BitVec.ofNat 8 k)).advance

end Sys2Proof.Machine
end

