-- ==== Sys2Proof/Machine/Step.lean ====
section
/-! DEFINITION. One step: halted check, fetch, decode, execute, tick (R120, R130). -/

namespace Sys2Proof.Machine

/-- Execute and tick for a fetched word (R123 to R128). -/
def runWord (w : Word) (s : State) : Result :=
  match decode w with
  | .instr i => endResult (exec i s)
  | .reject _ => endResult (.next (s.unknownOpcode w))

/-- A step of a core that is not halted: the fetch fault comes before decode (R122, R253). -/
def runStep (s : State) : Result :=
  match s.fetch with
  | none => .next (s.raise .fetchOob s.pc)
  | some w => runWord w s

/-- The whole step (R130). A halted core does nothing: FAULT stays, the pulses are false (R121). -/
def step (s : State) : Host.Outcome State Fault Refusal :=
  if s.fault.isSome then .next s.clearOutputs else runStep s.clearOutputs

/-- Where the next fetch reads: `pc` if a word can be fetched there, else the program base. -/
def State.fetchAddr (s : State) : Word := if s.pc.toNat ≤ 0xFFE then s.pc else 0x200

/-- `s` with the table word `w` where the next step fetches it, high byte first (R64), and with the two things a
fetch needs: no FAULT latched, a fetchable `pc` (log 28). -/
def State.withFetchWord (s : State) (nbits w : Nat) : State :=
  { s with
    fault := none
    pc := s.fetchAddr
    mem := Memory.writeList s.mem s.fetchAddr.toNat [hiByte (tableWord nbits w), loByte (tableWord nbits w)] }

end Sys2Proof.Machine
end

