-- ==== Sys2Proof/Laws/Decode.lean ====
section
/-! SUPPORT. Fields of packed words, packed fields of words, and bytes of words. -/

namespace Sys2Proof

@[simp] theorem regBits_xOf (w : Word) : regBits (xOf w) = hiNibble w := rfl

@[simp] theorem toFin_regBits (r : RegIx) : (regBits r).toFin = r := rfl

@[simp] theorem regBits_toNat (r : RegIx) : (regBits r).toNat = r.val := rfl

/-! ### Fields as numbers -/

theorem famOf_toNat (w : Word) : (famOf w).toNat = w.toNat / 4096 := by
  have := w.isLt
  simp only [famOf, BitVec.extractLsb'_toNat, Nat.shiftRight_eq_div_pow]
  omega

theorem hiNibble_toNat (w : Word) : (hiNibble w).toNat = w.toNat / 256 % 16 := by
  simp only [hiNibble, BitVec.extractLsb'_toNat, Nat.shiftRight_eq_div_pow]

theorem xOf_val (w : Word) : (xOf w).val = w.toNat / 256 % 16 := hiNibble_toNat w

theorem yOf_val (w : Word) : (yOf w).val = w.toNat / 16 % 16 := by
  show (w.extractLsb' 4 4).toNat = _
  simp only [BitVec.extractLsb'_toNat, Nat.shiftRight_eq_div_pow]

theorem nOf_toNat (w : Word) : (nOf w).toNat = w.toNat % 16 := by
  simp [nOf, BitVec.extractLsb'_toNat]

theorem kkOf_toNat (w : Word) : (kkOf w).toNat = w.toNat % 256 := by
  simp [kkOf, BitVec.extractLsb'_toNat]

theorem nnnOf_toNat (w : Word) : (nnnOf w).toNat = w.toNat % 4096 := by
  simp [nnnOf, BitVec.extractLsb'_toNat]

/-! ### Packed words as numbers -/

theorem packNNN_toNat (f : BitVec 4) (nnn : BitVec 12) : (packNNN f nnn).toNat = f.toNat * 4096 + nnn.toNat := by
  have h := nnn.isLt
  rw [packNNN, BitVec.toNat_append, Nat.shiftLeft_eq, Nat.mul_comm, Nat.two_pow_add_eq_or_of_lt h]

theorem packXKK_toNat (f x : BitVec 4) (kk : Byte) :
    (packXKK f x kk).toNat = f.toNat * 4096 + x.toNat * 256 + kk.toNat := by
  have h := x.isLt
  have h' := kk.isLt
  rw [packXKK, BitVec.toNat_append, BitVec.toNat_append, Nat.shiftLeft_eq, Nat.shiftLeft_eq, Nat.mul_comm,
    ← Nat.two_pow_add_eq_or_of_lt h', Nat.mul_comm f.toNat, ← Nat.two_pow_add_eq_or_of_lt h]
  omega

theorem packXYN_toNat (f x y n : BitVec 4) :
    (packXYN f x y n).toNat = f.toNat * 4096 + x.toNat * 256 + y.toNat * 16 + n.toNat := by
  have h := x.isLt
  have h' := y.isLt
  have h'' := n.isLt
  rw [packXYN, BitVec.toNat_append, BitVec.toNat_append, BitVec.toNat_append, Nat.shiftLeft_eq, Nat.shiftLeft_eq,
    Nat.shiftLeft_eq, Nat.mul_comm, ← Nat.two_pow_add_eq_or_of_lt h'', Nat.mul_comm _ (2 ^ 4),
    ← Nat.two_pow_add_eq_or_of_lt h', Nat.mul_comm f.toNat, ← Nat.two_pow_add_eq_or_of_lt h]
  omega

theorem wordOfBytes_toNat (hi lo : Byte) : (wordOfBytes hi lo).toNat = hi.toNat * 256 + lo.toNat := by
  have h := lo.isLt
  rw [wordOfBytes, BitVec.toNat_append, Nat.shiftLeft_eq, Nat.mul_comm, ← Nat.two_pow_add_eq_or_of_lt h]

@[simp] theorem wordOfBytes_halves (w : Word) : wordOfBytes (hiByte w) (loByte w) = w := by
  apply BitVec.eq_of_toNat_eq
  have := w.isLt
  simp only [wordOfBytes_toNat, hiByte, loByte, BitVec.extractLsb'_toNat, Nat.shiftRight_eq_div_pow]
  omega

/-! ### Fields of a packed word -/

variable (f x y n : BitVec 4) (nnn : BitVec 12) (kk : Byte)

@[simp] theorem famOf_packNNN : famOf (packNNN f nnn) = f := by
  apply BitVec.eq_of_toNat_eq
  have := nnn.isLt
  rw [famOf_toNat, packNNN_toNat]
  omega

@[simp] theorem nnnOf_packNNN : nnnOf (packNNN f nnn) = nnn := by
  apply BitVec.eq_of_toNat_eq
  have := nnn.isLt
  rw [nnnOf_toNat, packNNN_toNat]
  omega

@[simp] theorem kkOf_packNNN : kkOf (packNNN f nnn) = nnn.extractLsb' 0 8 := by
  apply BitVec.eq_of_toNat_eq
  rw [kkOf_toNat, packNNN_toNat, BitVec.extractLsb'_toNat]
  simp only [Nat.shiftRight_zero]
  omega

@[simp] theorem famOf_packXKK : famOf (packXKK f x kk) = f := by
  apply BitVec.eq_of_toNat_eq
  have := x.isLt
  have := kk.isLt
  rw [famOf_toNat, packXKK_toNat]
  omega

@[simp] theorem hiNibble_packXKK : hiNibble (packXKK f x kk) = x := by
  apply BitVec.eq_of_toNat_eq
  have := x.isLt
  have := kk.isLt
  rw [hiNibble_toNat, packXKK_toNat]
  omega

@[simp] theorem xOf_packXKK : xOf (packXKK f x kk) = x.toFin :=
  congrArg BitVec.toFin (hiNibble_packXKK f x kk)

@[simp] theorem kkOf_packXKK : kkOf (packXKK f x kk) = kk := by
  apply BitVec.eq_of_toNat_eq
  have := kk.isLt
  rw [kkOf_toNat, packXKK_toNat]
  omega

@[simp] theorem famOf_packXYN : famOf (packXYN f x y n) = f := by
  apply BitVec.eq_of_toNat_eq
  have := x.isLt
  have := y.isLt
  have := n.isLt
  rw [famOf_toNat, packXYN_toNat]
  omega

@[simp] theorem xOf_packXYN : xOf (packXYN f x y n) = x.toFin := by
  apply Fin.eq_of_val_eq
  have := x.isLt
  have := y.isLt
  have := n.isLt
  rw [xOf_val, packXYN_toNat, BitVec.val_toFin]
  omega

@[simp] theorem yOf_packXYN : yOf (packXYN f x y n) = y.toFin := by
  apply Fin.eq_of_val_eq
  have := y.isLt
  have := n.isLt
  rw [yOf_val, packXYN_toNat, BitVec.val_toFin]
  omega

@[simp] theorem nOf_packXYN : nOf (packXYN f x y n) = n := by
  apply BitVec.eq_of_toNat_eq
  have := n.isLt
  rw [nOf_toNat, packXYN_toNat]
  omega

/-! ### A word packed again from its fields -/

theorem packNNN_fields (w : Word) : packNNN (famOf w) (nnnOf w) = w := by
  apply BitVec.eq_of_toNat_eq
  rw [packNNN_toNat, famOf_toNat, nnnOf_toNat]
  omega

theorem packXKK_fields (w : Word) : packXKK (famOf w) (hiNibble w) (kkOf w) = w := by
  apply BitVec.eq_of_toNat_eq
  have := w.isLt
  rw [packXKK_toNat, famOf_toNat, hiNibble_toNat, kkOf_toNat]
  omega

theorem packXYN_fields (w : Word) : packXYN (famOf w) (regBits (xOf w)) (regBits (yOf w)) (nOf w) = w := by
  apply BitVec.eq_of_toNat_eq
  have := w.isLt
  rw [packXYN_toNat, famOf_toNat, regBits_toNat, regBits_toNat, xOf_val, yOf_val, nOf_toNat]
  omega

/-! ### Bytes -/

theorem decodeBytes_encodeBytes (i : Instr) : decodeBytes (encodeBytes i) = (decode (encode i), []) := by
  simp [decodeBytes, encodeBytes]

theorem decodeTableWord_eq (nbits w : Nat) :
    decodeTableWord nbits w = match decode (tableWord nbits w) with | .instr i => some i | .reject _ => none := by
  cases h : decode (tableWord nbits w) <;> simp [decodeTableWord, decodeBytes, wordOfBytes_halves, h]

end Sys2Proof
end

