-- ==== Sys2Proof/Laws/PerInstr.lean ====
section
/-! SUPPORT. Facts of every instruction as syntax, one lemma per constructor. -/

namespace Sys2Proof.Laws.TableMatch

/-- The encoded word matches its row of the opcode map: `w & mask = match` (R95). -/
def Statement (i : Instr) : Prop := encode i &&& rowMask i = rowMatch i

theorem packNNN_bit (f : BitVec 4) (a : BitVec 12) (j : Nat) :
    (packNNN f a).getLsbD j = if j < 12 then a.getLsbD j else f.getLsbD (j - 12) := BitVec.getLsbD_append

theorem packXKK_bit (f x : BitVec 4) (k : Byte) (j : Nat) :
    (packXKK f x k).getLsbD j =
      if j < 8 then k.getLsbD j else if j - 8 < 4 then x.getLsbD (j - 8) else f.getLsbD (j - 8 - 4) := by
  rw [← BitVec.getLsbD_append (x := f) (y := x) (i := j - 8)]
  exact BitVec.getLsbD_append

theorem packXYN_bit (f x y n : BitVec 4) (j : Nat) :
    (packXYN f x y n).getLsbD j =
      if j < 4 then n.getLsbD j
      else if j - 4 < 4 then y.getLsbD (j - 4)
      else if j - 4 - 4 < 4 then x.getLsbD (j - 4 - 4) else f.getLsbD (j - 4 - 4 - 4) := by
  rw [← BitVec.getLsbD_append (x := f) (y := x), ← BitVec.getLsbD_append (x := f ++ x) (y := y)]
  exact BitVec.getLsbD_append

theorem mask_F000 (w : Word) : w &&& 0xF000 = packNNN (famOf w) 0 := by
  apply BitVec.eq_of_getLsbD_eq
  intro j hj
  rw [packNNN_bit]
  interval_cases j <;> simp [famOf]

theorem mask_F0FF (w : Word) : w &&& 0xF0FF = packXKK (famOf w) 0 (kkOf w) := by
  apply BitVec.eq_of_getLsbD_eq
  intro j hj
  rw [packXKK_bit]
  interval_cases j <;> simp [famOf, kkOf]

theorem mask_F00F (w : Word) : w &&& 0xF00F = packXYN (famOf w) 0 0 (nOf w) := by
  apply BitVec.eq_of_getLsbD_eq
  intro j hj
  rw [packXYN_bit]
  interval_cases j <;> simp [famOf, nOf]

theorem nnn_row (f : BitVec 4) (a : BitVec 12) {r : Word} (h : packNNN f 0 = r) : packNNN f a &&& 0xF000 = r := by
  rw [mask_F000, famOf_packNNN, h]

theorem xkk_row (f x : BitVec 4) (k : Byte) {r : Word} (h : packNNN f 0 = r) : packXKK f x k &&& 0xF000 = r := by
  rw [mask_F000, famOf_packXKK, h]

theorem xyn_row (f x y n : BitVec 4) {r : Word} (h : packNNN f 0 = r) : packXYN f x y n &&& 0xF000 = r := by
  rw [mask_F000, famOf_packXYN, h]

theorem xss_row (f x : BitVec 4) (k : Byte) {r : Word} (h : packXKK f 0 k = r) : packXKK f x k &&& 0xF0FF = r := by
  rw [mask_F0FF, famOf_packXKK, kkOf_packXKK, h]

theorem xys_row (f x y n : BitVec 4) {r : Word} (h : packXYN f 0 0 n = r) : packXYN f x y n &&& 0xF00F = r := by
  rw [mask_F00F, famOf_packXYN, nOf_packXYN, h]

theorem sys (nnn : BitVec 12) : Statement (.sys nnn) :=
  nnn_row _ _ rfl

theorem cls (z : BitVec 4) : Statement (.cls z) :=
  xss_row _ _ _ rfl

theorem ret (z : BitVec 4) : Statement (.ret z) :=
  xss_row _ _ _ rfl

theorem jp (nnn : BitVec 12) : Statement (.jp nnn) :=
  nnn_row _ _ rfl

theorem call (nnn : BitVec 12) : Statement (.call nnn) :=
  nnn_row _ _ rfl

theorem seByte (x : RegIx) (kk : Byte) : Statement (.seByte x kk) :=
  xkk_row _ _ _ rfl

theorem sneByte (x : RegIx) (kk : Byte) : Statement (.sneByte x kk) :=
  xkk_row _ _ _ rfl

theorem seReg (x : RegIx) (y : RegIx) (z : BitVec 4) : Statement (.seReg x y z) :=
  xyn_row _ _ _ _ rfl

theorem ldByte (x : RegIx) (kk : Byte) : Statement (.ldByte x kk) :=
  xkk_row _ _ _ rfl

theorem addByte (x : RegIx) (kk : Byte) : Statement (.addByte x kk) :=
  xkk_row _ _ _ rfl

theorem ldReg (x : RegIx) (y : RegIx) : Statement (.ldReg x y) :=
  xys_row _ _ _ _ rfl

theorem orReg (x : RegIx) (y : RegIx) : Statement (.orReg x y) :=
  xys_row _ _ _ _ rfl

theorem andReg (x : RegIx) (y : RegIx) : Statement (.andReg x y) :=
  xys_row _ _ _ _ rfl

theorem xorReg (x : RegIx) (y : RegIx) : Statement (.xorReg x y) :=
  xys_row _ _ _ _ rfl

theorem addReg (x : RegIx) (y : RegIx) : Statement (.addReg x y) :=
  xys_row _ _ _ _ rfl

theorem subReg (x : RegIx) (y : RegIx) : Statement (.subReg x y) :=
  xys_row _ _ _ _ rfl

theorem shr (x : RegIx) (y : RegIx) : Statement (.shr x y) :=
  xys_row _ _ _ _ rfl

theorem subn (x : RegIx) (y : RegIx) : Statement (.subn x y) :=
  xys_row _ _ _ _ rfl

theorem shl (x : RegIx) (y : RegIx) : Statement (.shl x y) :=
  xys_row _ _ _ _ rfl

theorem sneReg (x : RegIx) (y : RegIx) (z : BitVec 4) : Statement (.sneReg x y z) :=
  xyn_row _ _ _ _ rfl

theorem ldI (nnn : BitVec 12) : Statement (.ldI nnn) :=
  nnn_row _ _ rfl

theorem jpV0 (nnn : BitVec 12) : Statement (.jpV0 nnn) :=
  nnn_row _ _ rfl

theorem rnd (x : RegIx) (kk : Byte) : Statement (.rnd x kk) :=
  xkk_row _ _ _ rfl

theorem drw (x : RegIx) (y : RegIx) (n : BitVec 4) : Statement (.drw x y n) :=
  xyn_row _ _ _ _ rfl

theorem skp (x : RegIx) : Statement (.skp x) :=
  xss_row _ _ _ rfl

theorem sknp (x : RegIx) : Statement (.sknp x) :=
  xss_row _ _ _ rfl

theorem ldVxDT (x : RegIx) : Statement (.ldVxDT x) :=
  xss_row _ _ _ rfl

theorem ldVxK (x : RegIx) : Statement (.ldVxK x) :=
  xss_row _ _ _ rfl

theorem ldDTVx (x : RegIx) : Statement (.ldDTVx x) :=
  xss_row _ _ _ rfl

theorem ldSTVx (x : RegIx) : Statement (.ldSTVx x) :=
  xss_row _ _ _ rfl

theorem addIVx (x : RegIx) : Statement (.addIVx x) :=
  xss_row _ _ _ rfl

theorem ldFVx (x : RegIx) : Statement (.ldFVx x) :=
  xss_row _ _ _ rfl

theorem ldBVx (x : RegIx) : Statement (.ldBVx x) :=
  xss_row _ _ _ rfl

theorem storeRegs (x : RegIx) : Statement (.storeRegs x) :=
  xss_row _ _ _ rfl

theorem loadRegs (x : RegIx) : Statement (.loadRegs x) :=
  xss_row _ _ _ rfl

end Sys2Proof.Laws.TableMatch
end

