-- ==== Sys2Proof/Machine/Console.lean ====
section
/-! DEFINITION. The host's side of the core: its ports (R35), its moves between steps (R36, R72), boot order (R281). -/

namespace Sys2Proof.Machine

/-- The number on the port `fault_code` (R251, decision D23). -/
def FaultCode.number : FaultCode → BitVec 3
  | .fetchOob => 1
  | .memOob => 2
  | .stackOverflow => 3
  | .stackUnderflow => 4
  | .keyOob => 5

/-- The outputs of a step (R9, R129): `fault` is the latch, a level; the other two are pulses of that step. -/
structure Outputs where
  beep : Bool
  unknown : Option (Word × Word)
  fault : Option (BitVec 3 × Word)
  deriving DecidableEq, Repr

/-- What the host reads after a step beside the framebuffer, whose cells `State.cell` gives (R31, R35). -/
def State.outputs (s : State) : Outputs where
  beep := s.beep
  unknown := s.unknown.map fun u => (u.word, u.pc)
  fault := s.fault.map fun r => (r.code.number, r.info)

/-- The core with what its environment keeps beside it: whether the load port is open, from reset to the first step (R35,
R74, R281, decision D27), and the model's argument `GLYPH_ROM`, the same for a whole run (R5, R62, decision D25). -/
structure Console where
  core : State
  loadOpen : Bool
  rom : GlyphRom
  deriving DecidableEq, Repr

/-- What the host can do between steps (R35): the ports `reset`, `ld_we` with address and data, `keys`, `step`. -/
inductive HostMove where
  | reset
  | load (addr : BitVec 12) (data : Byte)
  | setKeys (keys : BitVec 16)
  | step
  deriving DecidableEq, Repr

/-- `reset` (R37, R280), at any time and from a halted core too. The key latch is the host's and the random bytes come
from outside the core, so neither starts again (log 26). -/
def State.hostReset (s : State) (rom : GlyphRom) : State :=
  { State.resetWith rom with keys := s.keys, draws := s.draws }

/-- The core as it is created with the glyph set `rom`, with nothing loaded. -/
def Console.powerOn (rom : GlyphRom) : Console := ⟨State.resetWith rom, true, rom⟩

/-- One byte through the load port: only from 0x200 on, only while the port is open; anything else breaks a host
duty and has no meaning (R72, R74). -/
def Console.loadByte (c : Console) (a : BitVec 12) (b : Byte) : Option Console :=
  if c.loadOpen = true ∧ Config.programBase ≤ a.toNat then some { c with core := c.core.storeBytes a.toNat [b] } else none

/-- One `step()`, after which the load port is closed (R281). -/
def Console.stepCore (c : Console) : Option Console :=
  match step c.core with
  | .next s => some { c with core := s, loadOpen := false }
  | .fault _ => none
  | .refused _ => none

/-- One host move. -/
def Console.apply (c : Console) : HostMove → Option Console
  | .reset => some { c with core := c.core.hostReset c.rom, loadOpen := true }
  | .load a b => c.loadByte a b
  | .setKeys k => some { c with core := { c.core with keys := k } }
  | .step => c.stepCore

/-- A sequence of host moves; none where one of them has no meaning. -/
def Console.run (c : Console) : List HostMove → Option Console
  | [] => some c
  | m :: ms => (c.apply m).bind fun d => Console.run d ms

/-- The loader's whole job (R74): the image verbatim from 0x200; an image over 3584 bytes is refused. -/
def State.loadImage (s : State) (image : List Byte) : Option State :=
  if image.length ≤ Config.programMaxBytes then some (s.storeBytes Config.programBase image) else none

end Sys2Proof.Machine
end

