-- ==== Sys2Proof/Safety.lean ====
section
/-! DEFINITION. The terms of the claims: frames, what a step fetches, which fault is due, the invariant, a finished run. -/

namespace Sys2Proof.Machine

/-! ### Frames -/

/-- What an instruction may write; everything not named is in its frame. `pc` is never in a frame. -/
structure MayWrite where
  regs : RegIx → Prop := fun _ => False
  index : Bool := false
  stack : Bool := false
  delay : Bool := false
  sound : Bool := false
  mem : Nat → Prop := fun _ => False
  screen : Bool := false
  report : Bool := false

/-- `t` differs from `s` at most in `pc` and in what `w` names. -/
structure Frame (w : MayWrite) (s t : State) : Prop where
  regs : ∀ r, ¬ w.regs r → t.reg r = s.reg r
  index : w.index = false → t.i = s.i
  stack : w.stack = false → t.stack = s.stack ∧ t.sp = s.sp
  delay : w.delay = false → t.dt = s.dt
  sound : w.sound = false → t.st = s.st
  mem : ∀ a, ¬ w.mem a → t.readByte a = s.readByte a
  screen : w.screen = false → t.fb = s.fb
  report : w.report = false → t.unknown = s.unknown
  host : t.keys = s.keys ∧ t.fault = s.fault ∧ t.beep = s.beep ∧ t.draws = s.draws

/-- Fault entry (R252): `t` is `s` with FAULT latched and the pulses false, and nothing else changed. -/
def Faulted (code : FaultCode) (info : Word) (s t : State) : Prop :=
  t = { s with fault := some ⟨code, info⟩, beep := false, unknown := none }

/-! ### What a step fetches -/

/-- The word at `pc`, big-endian (R64). -/
def wordAt (s : State) : Word := wordOfBytes (s.readByte s.pc.toNat) (s.readByte (s.pc.toNat + 1))

/-- The core is not halted, a word can be fetched, and it decodes to `i` (R121, R122, R123). -/
def Fetches (s : State) (i : Instr) : Prop :=
  s.fault = none ∧ s.pc.toNat ≤ 0xFFE ∧ decode (wordAt s) = .instr i

/-- The same for a word of R97 outside family 0. -/
def FetchesUnknown (s : State) : Prop :=
  s.fault = none ∧ s.pc.toNat ≤ 0xFFE ∧ ∃ r, decode (wordAt s) = .reject r

/-! ### Which fault is due: R251's table as a function -/

/-- The row of an access to the `n` bytes at `I`: `n > 0` and `I + n - 1 > 0xFFF`. -/
def rangeFault (n : Nat) (s : State) : Option FaultRecord :=
  if 0 < n ∧ 0xFFF < s.i.toNat + n - 1 then some ⟨.memOob, BitVec.ofNat 16 (max s.i.toNat 0x1000)⟩ else none

/-- The fault an instruction raises in a state, if any (R251). -/
def instrFault (s : State) : Instr → Option FaultRecord
  | .drw _ _ n => rangeFault n.toNat s
  | .ldBVx _ => rangeFault 3 s
  | .storeRegs x | .loadRegs x => rangeFault (x.val + 1) s
  | .call _ => if s.sp.val = 16 then some ⟨.stackOverflow, s.pc⟩ else none
  | .ret _ => if s.sp.val = 0 then some ⟨.stackUnderflow, s.pc⟩ else none
  | .skp x | .sknp x => if 15 < (s.reg x).toNat then some ⟨.keyOob, BitVec.ofNat 16 (s.reg x).toNat⟩ else none
  | .sys _ | .cls _ | .jp _ | .seByte _ _ | .sneByte _ _ | .seReg _ _ _ | .ldByte _ _ | .addByte _ _ | .ldReg _ _
  | .orReg _ _ | .andReg _ _ | .xorReg _ _ | .addReg _ _ | .subReg _ _ | .shr _ _ | .subn _ _ | .shl _ _
  | .sneReg _ _ _ | .ldI _ | .jpV0 _ | .rnd _ _ | .ldVxDT _ | .ldVxK _ | .ldDTVx _ | .ldSTVx _ | .addIVx _
  | .ldFVx _ => none

/-- The fault the next step of a core that is not halted raises, if any: the fetch's first (R253). -/
def faultDue (s : State) : Option FaultRecord :=
  if 0xFFE < s.pc.toNat then some ⟨.fetchOob, s.pc⟩
  else match decode (wordAt s) with
    | .instr i => instrFault s i
    | .reject _ => none

/-! ### How pc moves: R125's classes as a function -/

/-- `pc` after an instruction that does not fault (R125). -/
def pcAfter (s : State) : Instr → Word
  | .jp nnn | .call nnn => BitVec.ofNat 16 nnn.toNat
  | .jpV0 nnn => BitVec.ofNat 16 (nnn.toNat + (s.reg 0).toNat)
  | .ret _ => BitVec.ofNat 16 ((s.stack.toList.getD (s.sp.val - 1) 0).toNat + 2)
  | .seByte x kk => if s.reg x = kk then s.pc + 4 else s.pc + 2
  | .sneByte x kk => if s.reg x = kk then s.pc + 2 else s.pc + 4
  | .seReg x y _ => if s.reg x = s.reg y then s.pc + 4 else s.pc + 2
  | .sneReg x y _ => if s.reg x = s.reg y then s.pc + 2 else s.pc + 4
  | .skp x => if s.keys.getLsbD (s.reg x).toNat then s.pc + 4 else s.pc + 2
  | .sknp x => if s.keys.getLsbD (s.reg x).toNat then s.pc + 2 else s.pc + 4
  | .ldVxK _ => if s.keys = 0 then s.pc else s.pc + 2
  | .sys _ | .cls _ | .ldByte _ _ | .addByte _ _ | .ldReg _ _ | .orReg _ _ | .andReg _ _ | .xorReg _ _
  | .addReg _ _ | .subReg _ _ | .shr _ _ | .subn _ _ | .shl _ _ | .ldI _ | .rnd _ _ | .drw _ _ _ | .ldVxDT _
  | .ldDTVx _ | .ldSTVx _ | .addIVx _ | .ldFVx _ | .ldBVx _ | .storeRegs _ | .loadRegs _ => s.pc + 2

/-! ### Register 15 -/

/-- The six instructions that write VF as a side effect (R22). -/
def flagWriter : Instr → Bool
  | .addReg _ _ | .subReg _ _ | .shr _ _ | .subn _ _ | .shl _ _ | .drw _ _ _ => true
  | .sys _ | .cls _ | .ret _ | .jp _ | .call _ | .seByte _ _ | .sneByte _ _ | .seReg _ _ _ | .ldByte _ _
  | .addByte _ _ | .ldReg _ _ | .orReg _ _ | .andReg _ _ | .xorReg _ _ | .sneReg _ _ _ | .ldI _ | .jpV0 _ | .rnd _ _
  | .skp _ | .sknp _ | .ldVxDT _ | .ldVxK _ | .ldDTVx _ | .ldSTVx _ | .addIVx _ | .ldFVx _ | .ldBVx _
  | .storeRegs _ | .loadRegs _ => false

/-- The instructions that name a destination register, with it: for `LD Vx,[I]` the last of its range. -/
def destination : Instr → Option RegIx
  | .ldByte x _ | .addByte x _ | .ldReg x _ | .orReg x _ | .andReg x _ | .xorReg x _ | .addReg x _ | .subReg x _
  | .shr x _ | .subn x _ | .shl x _ | .rnd x _ | .ldVxDT x | .ldVxK x | .loadRegs x => some x
  | .sys _ | .cls _ | .ret _ | .jp _ | .call _ | .seByte _ _ | .sneByte _ _ | .seReg _ _ _ | .sneReg _ _ _ | .ldI _
  | .jpV0 _ | .drw _ _ _ | .skp _ | .sknp _ | .ldDTVx _ | .ldSTVx _ | .addIVx _ | .ldFVx _ | .ldBVx _
  | .storeRegs _ => none

/-! ### The sprite a DRW covers -/

/-- Cell `c` is the target of a set bit of the `h`-row sprite at `I` drawn from `(x0, y0)` (R210, R212). -/
def spriteCovers (s : State) (x0 y0 h c : Nat) : Prop :=
  ∃ row, row < h ∧ ∃ col, col < 8 ∧ (s.readByte (s.i.toNat + row)).getLsbD (7 - col) = true ∧
    c = 64 * ((y0 + row) % 32) + (x0 + col) % 64

/-- A coordinate register of DRW as it is read: after VF has been zeroed (R213, decision D17). -/
def coord (s : State) (r : RegIx) : Nat := if r = 15 then 0 else (s.reg r).toNat

/-! ### The invariant -/

/-- What every run keeps: memory in canonical form; every stack entry a fetchable address (R38); `pc` at most 0x10FE
(R26); FAULT, when latched, is the fault that is due in the state it left (R251, R252); a halted core has neither pulse
(R121, R129). -/
structure Inv (s : State) : Prop where
  memory : Memory.wf s.mem = true
  stack : ∀ k, (h : k < 16) → s.stack[k].toNat ≤ 0xFFE
  pc : s.pc.toNat ≤ 0x10FE
  fault : ∀ r, s.fault = some r → faultDue s = some r
  pulses : s.fault ≠ none → s.beep = false ∧ s.unknown = none

/-! ### Runs -/

/-- The program is finished (R283, the spec's convention): not halted, and at a `JP` to its own address. -/
def Finished (s : State) : Prop := ∃ nnn, Fetches s (.jp nnn) ∧ nnn.toNat = s.pc.toNat

/-- A run that has gone wrong (R254). -/
def Halted (s : State) : Prop := s.fault ≠ none

end Sys2Proof.Machine
end

