-- ==== Sys2Proof/Certificates/Slice0/Obligations.lean ====
section
/-! DEFINITION. The statements for the provers. Each docstring names the rules it states and, where a clause rests on a
decision of the spec or on its general knowledge, the decision and the log entry. -/

open Sys2Proof Sys2Proof.Machine

/-! ### Encoding -/

/-- R91: the fields are the stated bits of the word, as numbers, and `kk = y ++ n`, `nnn = x ++ y ++ n`. -/
def Obligations.FieldsAreTheStatedBits : Prop :=
  ∀ w : Word,
    (famOf w).toNat = w.toNat / 4096 ∧
    (xOf w).val = w.toNat / 256 % 16 ∧
    (yOf w).val = w.toNat / 16 % 16 ∧
    (nOf w).toNat = w.toNat % 16 ∧
    (kkOf w).toNat = w.toNat % 256 ∧
    (nnnOf w).toNat = w.toNat % 4096 ∧
    (kkOf w).toNat = 16 * (yOf w).val + (nOf w).toNat ∧
    (nnnOf w).toNat = 256 * (xOf w).val + 16 * (yOf w).val + (nOf w).toNat

/-- R95's patterns, every operand at every value: each row's word as a number (general knowledge G1, log 11). R95 writes
`00E0`, `00EE`, `5xy0`, `9xy0` and leaves the `y` of the shifts unused: that the bits the decoder ignores there (R96,
decisions D10, D11) are operands of the instruction here is the model's choice (log 12). -/
def Obligations.EncodingsFollowTheOpcodeMap : Prop :=
  ∀ (x y : RegIx) (n z : BitVec 4) (kk : Byte) (nnn : BitVec 12),
    (encode (.sys nnn)).toNat = nnn.toNat ∧
    (encode (.cls z)).toNat = 256 * z.toNat + 0xE0 ∧
    (encode (.ret z)).toNat = 256 * z.toNat + 0xEE ∧
    (encode (.jp nnn)).toNat = 0x1000 + nnn.toNat ∧
    (encode (.call nnn)).toNat = 0x2000 + nnn.toNat ∧
    (encode (.seByte x kk)).toNat = 0x3000 + 256 * x.val + kk.toNat ∧
    (encode (.sneByte x kk)).toNat = 0x4000 + 256 * x.val + kk.toNat ∧
    (encode (.seReg x y z)).toNat = 0x5000 + 256 * x.val + 16 * y.val + z.toNat ∧
    (encode (.ldByte x kk)).toNat = 0x6000 + 256 * x.val + kk.toNat ∧
    (encode (.addByte x kk)).toNat = 0x7000 + 256 * x.val + kk.toNat ∧
    (encode (.ldReg x y)).toNat = 0x8000 + 256 * x.val + 16 * y.val ∧
    (encode (.orReg x y)).toNat = 0x8001 + 256 * x.val + 16 * y.val ∧
    (encode (.andReg x y)).toNat = 0x8002 + 256 * x.val + 16 * y.val ∧
    (encode (.xorReg x y)).toNat = 0x8003 + 256 * x.val + 16 * y.val ∧
    (encode (.addReg x y)).toNat = 0x8004 + 256 * x.val + 16 * y.val ∧
    (encode (.subReg x y)).toNat = 0x8005 + 256 * x.val + 16 * y.val ∧
    (encode (.shr x y)).toNat = 0x8006 + 256 * x.val + 16 * y.val ∧
    (encode (.subn x y)).toNat = 0x8007 + 256 * x.val + 16 * y.val ∧
    (encode (.shl x y)).toNat = 0x800E + 256 * x.val + 16 * y.val ∧
    (encode (.sneReg x y z)).toNat = 0x9000 + 256 * x.val + 16 * y.val + z.toNat ∧
    (encode (.ldI nnn)).toNat = 0xA000 + nnn.toNat ∧
    (encode (.jpV0 nnn)).toNat = 0xB000 + nnn.toNat ∧
    (encode (.rnd x kk)).toNat = 0xC000 + 256 * x.val + kk.toNat ∧
    (encode (.drw x y n)).toNat = 0xD000 + 256 * x.val + 16 * y.val + n.toNat ∧
    (encode (.skp x)).toNat = 0xE09E + 256 * x.val ∧
    (encode (.sknp x)).toNat = 0xE0A1 + 256 * x.val ∧
    (encode (.ldVxDT x)).toNat = 0xF007 + 256 * x.val ∧
    (encode (.ldVxK x)).toNat = 0xF00A + 256 * x.val ∧
    (encode (.ldDTVx x)).toNat = 0xF015 + 256 * x.val ∧
    (encode (.ldSTVx x)).toNat = 0xF018 + 256 * x.val ∧
    (encode (.addIVx x)).toNat = 0xF01E + 256 * x.val ∧
    (encode (.ldFVx x)).toNat = 0xF029 + 256 * x.val ∧
    (encode (.ldBVx x)).toNat = 0xF033 + 256 * x.val ∧
    (encode (.storeRegs x)).toNat = 0xF055 + 256 * x.val ∧
    (encode (.loadRegs x)).toNat = 0xF065 + 256 * x.val

/-- Every well-formed instruction, every operand at every value, decodes from its word and from its two bytes in memory
order, with nothing left over (R64, R95, R102; patterns: log 11; ignored bits: log 12). -/
def Obligations.DecodeOfEncodeIsTheInstruction : Prop :=
  ∀ i : Instr, i.wf = true →
    decode (encode i) = .instr i ∧ ∀ rest, decodeBytes (encodeBytes i ++ rest) = (.instr i, rest)

/-- A word that decodes decodes to a well-formed instruction whose word it is, so no two words share an instruction and
no bit is dropped (R95, R102; logs 11, 12). -/
def Obligations.EncodeOfDecodeIsTheWord : Prop :=
  ∀ (w : Word) (i : Instr), decode w = .instr i → i.wf = true ∧ encode i = w

/-- R97's table: the words outside the 35 patterns, and the words of `SYS` (decisions D10, D28; logs 12, 13). -/
def Obligations.UnknownWordsAreExactlyTheTable : Prop :=
  ∀ w : Word,
    ((∃ r, decode w = .reject r) ↔
      (w.toNat / 4096 = 0x8 ∧ w.toNat % 16 ∈ [0x8, 0x9, 0xA, 0xB, 0xC, 0xD, 0xF]) ∨
      (w.toNat / 4096 = 0xE ∧ w.toNat % 256 ∉ [0x9E, 0xA1]) ∨
      (w.toNat / 4096 = 0xF ∧ w.toNat % 256 ∉ [0x07, 0x0A, 0x15, 0x18, 0x1E, 0x29, 0x33, 0x55, 0x65])) ∧
    ((∃ nnn, decode w = .instr (.sys nnn)) ↔ w.toNat / 4096 = 0x0 ∧ w.toNat % 256 ∉ [0xE0, 0xEE])

/-- Words written out from the patterns, one of each family, decode to the instructions they stand for, ignored bits
included (R95, R96; B6 of 95_test_vectors.md; logs 11, 12). -/
def Obligations.SampleWordsDecode : Prop :=
  decode 0x0123 = .instr (.sys 0x123) ∧ decode 0x00E0 = .instr (.cls 0) ∧ decode 0x0FEE = .instr (.ret 0xF) ∧
  decode 0x1234 = .instr (.jp 0x234) ∧ decode 0x2300 = .instr (.call 0x300) ∧
  decode 0x3A05 = .instr (.seByte 10 5) ∧ decode 0x4A05 = .instr (.sneByte 10 5) ∧
  decode 0x5127 = .instr (.seReg 1 2 7) ∧ decode 0x63FF = .instr (.ldByte 3 0xFF) ∧
  decode 0x7105 = .instr (.addByte 1 5) ∧ decode 0x8F14 = .instr (.addReg 15 1) ∧
  decode 0x8127 = .instr (.subn 1 2) ∧ decode 0x810E = .instr (.shl 1 0) ∧
  decode 0x912F = .instr (.sneReg 1 2 0xF) ∧ decode 0xABCD = .instr (.ldI 0xBCD) ∧
  decode 0xB300 = .instr (.jpV0 0x300) ∧ decode 0xC10F = .instr (.rnd 1 0x0F) ∧
  decode 0xD125 = .instr (.drw 1 2 5) ∧ decode 0xE19E = .instr (.skp 1) ∧ decode 0xF165 = .instr (.loadRegs 1)

/-! ### The step -/

/-- R120, R123, R124, R127, R128: when the bytes at `pc` decode to `i`, the step is `exec i` from a state whose pulses are
false, then one tick unless the instruction faulted; `exec` always answers. The random byte of the next step is another
one (log 4); the pulses are in the state (log 14). -/
def Obligations.StepRunsTheDecodedInstruction : Prop :=
  ∀ (s : State) (i : Instr), s.fault = none → s.pc.toNat ≤ 0xFFE →
    decode (wordOfBytes (s.readByte s.pc.toNat) (s.readByte (s.pc.toNat + 1))) = .instr i →
    ∃ t, exec i { s with beep := false, unknown := none } = .next t ∧
      (t.fault = none → step s = .next
        { t with dt := BitVec.ofNat 8 (t.dt.toNat - 1), st := BitVec.ofNat 8 (t.st.toNat - 1),
                 beep := decide (t.st.toNat = 1), draws := t.draws + 1 }) ∧
      (t.fault ≠ none → step s = .next t)

/-- R126 for the words that are no instruction: nothing of the core's state but `pc + 2` and the tick, with the report of
the word and its address (decision D29, log 13). That the report and the pulse stand in the next state is the model's
form of a step's outputs (log 14), and the counter of random bytes, which goes up by one, is the model's own (log 4). -/
def Obligations.UnknownWordIsReportedAndSteppedOver : Prop :=
  ∀ s : State, FetchesUnknown s → step s = .next
    { s with pc := s.pc + 2, unknown := some ⟨wordAt s, s.pc⟩,
             dt := BitVec.ofNat 8 (s.dt.toNat - 1), st := BitVec.ofNat 8 (s.st.toNat - 1),
             beep := decide (s.st.toNat = 1), draws := s.draws + 1 }

/-- R122, R252: a fetch from above 0xFFE latches `FETCH_OOB` with `pc` and changes nothing else (decisions D1, D3, log 6). -/
def Obligations.FetchBeyondMemoryFaults : Prop :=
  ∀ s : State, s.fault = none → 0xFFE < s.pc.toNat → ∃ t, step s = .next t ∧ Faulted .fetchOob s.pc s t

/-- R121, R33: a halted core's step changes nothing but the pulses, which are false; FAULT stays (decision D3, log 5). -/
def Obligations.HaltedCoreDoesNothing : Prop :=
  ∀ (s : State) (r : FaultRecord), s.fault = some r → step s = .next { s with beep := false, unknown := none }

/-- Every state has a next state: no step stops outside the machine, whatever memory holds (R99, R121, R126, R252;
the reading of faults as next states is log 5). -/
def Obligations.EveryStateSteps : Prop := ∀ s : State, ∃ t, step s = .next t

/-- R251's table is complete and exact, and R252 is the entry: the step of a running core latches precisely the fault
that is due, changes nothing else, and shows the host that fault's code 1 to 5 and information word with both pulses false
(R35, R129); with none due it latches and shows none (decisions D1 to D4, D21, D23, logs 5 to 8). -/
def Obligations.FaultsAreExactlyTheTable : Prop :=
  ∀ s : State, s.fault = none →
    (∀ r, faultDue s = some r → ∃ t, step s = .next t ∧ Faulted r.code r.info s t ∧
      t.outputs.beep = false ∧ t.outputs.unknown = none ∧
      t.outputs.fault = some
        (match r.code with
          | .fetchOob => 1
          | .memOob => 2
          | .stackOverflow => 3
          | .stackUnderflow => 4
          | .keyOob => 5, r.info)) ∧
    (faultDue s = none → ∃ t, step s = .next t ∧ t.fault = none ∧ t.outputs.fault = none)

/-- The invariant holds at reset. -/
def Obligations.ResetMeetsTheInvariant : Prop := Inv State.reset

/-- From every state that meets the invariant, a step gives a state that meets it: memory stays canonical, stack entries
stay fetchable addresses, `pc` stays at most 0x10FE, FAULT is the fault due in the state it left, and a halted core has no
pulse (R26, R38, R60, R129, R252). -/
def Obligations.StepKeepsTheInvariant : Prop := ∀ s t : State, Inv s → step s = .next t → Inv t

/-- The core as created meets the invariant, its load port open and no FAULT latched; and from every console whose core
meets the invariant, and is not halted while the load port is open, each host move within the host's duties (reset, load,
keys, step) gives one of which both hold again, whatever the glyph set (R35, R36, R72, R74, R281; decisions D26, D27,
log 25). -/
def Obligations.HostMovesKeepTheInvariant : Prop :=
  (∀ rom, Inv (Console.powerOn rom).core ∧ (Console.powerOn rom).loadOpen = true ∧
    (Console.powerOn rom).core.fault = none) ∧
  ∀ (c d : Console) (m : HostMove), Inv c.core → (c.loadOpen = true → c.core.fault = none) → c.apply m = some d →
    Inv d.core ∧ (d.loadOpen = true → d.core.fault = none)

/-- Whatever the host does between steps within its duties, from power-on with any glyph set, the core meets the invariant
(R35, R36, R72, R74, R281; decisions D26, D27, log 25). -/
def Obligations.EveryHostRunKeepsTheInvariant : Prop :=
  ∀ (rom : GlyphRom) (moves : List HostMove) (c : Console), (Console.powerOn rom).run moves = some c → Inv c.core

/-- R37 and R280: reset at any time, from a halted core too, sets every piece of the core's own state, byte by byte and
cell by cell; the glyph bytes are the model's argument `GLYPH_ROM` (R5, R62), and with its default the core as created is
`State.reset` (decisions D19, D25; logs 9, 22). The load port opens (R281, decision D27, log 25). That `keys` is kept is
the model's choice, R30 leaving it to the host (log 26). -/
def Obligations.ResetSetsEveryPieceOfState : Prop :=
  ∀ c : Console, ∃ d, c.apply .reset = some d ∧ d.loadOpen = true ∧
    (∀ r, d.core.reg r = 0) ∧ d.core.i = 0 ∧ d.core.pc = 0x200 ∧ (∀ k, (h : k < 16) → d.core.stack[k] = 0) ∧
    d.core.sp.val = 0 ∧ d.core.dt = 0 ∧ d.core.st = 0 ∧
    (∀ a, (h : a < 80) → d.core.readByte a = c.rom[a]) ∧ (∀ a, 80 ≤ a → d.core.readByte a = 0) ∧ d.rom = c.rom ∧
    (Console.powerOn GlyphRom.default).core = State.reset ∧
    (∀ k, k < 2048 → d.core.cell k = false) ∧ d.core.fault = none ∧ d.core.beep = false ∧ d.core.unknown = none ∧
    d.core.keys = c.core.keys

/-- R35, R74: the load port takes a byte exactly when it is open and the address is 0x200 or above, writes that byte
only, and is closed by the first step. The loader puts byte `k` of an image of at most 3584 bytes at `0x200 + k`, leaves
every other byte and all other state, and refuses a longer image (decision D27, log 25). -/
def Obligations.LoadPortWritesOnlyTheProgramArea : Prop :=
  ∀ (c : Console) (a : BitVec 12) (b : Byte),
    (c.loadOpen = true → 0x200 ≤ a.toNat → ∃ d, c.apply (.load a b) = some d ∧ d.loadOpen = true ∧
      d.core.readByte a.toNat = b ∧ (∀ p, p ≠ a.toNat → d.core.readByte p = c.core.readByte p) ∧
      d.core = { c.core with mem := d.core.mem }) ∧
    (c.loadOpen = false ∨ a.toNat < 0x200 → c.apply (.load a b) = none) ∧
    (∀ d, c.apply .step = some d → d.loadOpen = false) ∧
    (∀ (s : State) (image : List Byte), image.length ≤ 3584 → ∃ t, s.loadImage image = some t ∧
      (∀ k, (h : k < image.length) → t.readByte (0x200 + k) = image[k]) ∧
      (∀ p, p < 0x200 ∨ 0x200 + image.length ≤ p → t.readByte p = s.readByte p) ∧ t = { s with mem := t.mem }) ∧
    (∀ (s : State) (image : List Byte), 3584 < image.length → s.loadImage image = none)

/-! ### Whole-machine rules -/

/-- R215: only `CLS` and `DRW` change a cell in a step, `CLS` clearing them all; the host cannot write one between steps,
except by reset, which clears them all; no fault and no unknown opcode changes one. (What `DRW` toggles is another
statement's, DrawTogglesExactlyTheSprite. The blank screen after reset: decision D19, log 22. The host's ports: D21, D26,
D27, log 25.) -/
def Obligations.OnlyClsAndDrwWriteTheScreen : Prop :=
  (∀ s t : State, step s = .next t →
    (t.fb ≠ s.fb → (∃ z, Fetches s (.cls z)) ∨ ∃ x y n, Fetches s (.drw x y n)) ∧
    (∀ z, Fetches s (.cls z) → ∀ q, q < 2048 → t.cell q = false) ∧
    (FetchesUnknown s ∨ t.fault ≠ none → t.fb = s.fb)) ∧
  (∀ (c d : Console) (a : BitVec 12) (b : Byte) (k : BitVec 16),
    (c.apply (.load a b) = some d ∨ c.apply (.setKeys k) = some d → d.core.fb = c.core.fb) ∧
    (c.apply .reset = some d → ∀ q, q < 2048 → d.core.cell q = false))

/-- R24: only `LD I,addr`, `ADD I,Vx` and `LD F,Vx` change `I` (logs 11, 20). -/
def Obligations.OnlyThreeInstructionsWriteTheIndex : Prop :=
  ∀ s t : State, step s = .next t → t.i ≠ s.i →
    (∃ nnn, Fetches s (.ldI nnn)) ∨ (∃ x, Fetches s (.addIVx x)) ∨ ∃ x, Fetches s (.ldFVx x)

/-- R27: only `CALL` pushes and only `RET` pops, one entry each; no other step changes `sp` or an entry, and `RET` leaves
the entries as they are (decision D24, log 7). -/
def Obligations.OnlyCallAndRetMoveTheStack : Prop :=
  ∀ s t : State, step s = .next t →
    (t.sp ≠ s.sp → (∃ nnn, Fetches s (.call nnn) ∧ t.sp.val = s.sp.val + 1) ∨
      ∃ z, Fetches s (.ret z) ∧ t.sp.val + 1 = s.sp.val) ∧
    (∀ k, (h : k < 16) → t.stack[k] ≠ s.stack[k] → k = s.sp.val ∧ t.stack[k] = s.pc ∧ ∃ nnn, Fetches s (.call nnn))

/-- R66: a step changes a byte of memory only by `LD B,Vx`, inside `I .. I+2`, or `LD [I],Vx`, inside `I .. I+x`. -/
def Obligations.OnlyTwoInstructionsStore : Prop :=
  ∀ (s t : State) (a : Nat), step s = .next t → t.readByte a ≠ s.readByte a →
    (∃ x, Fetches s (.ldBVx x) ∧ s.dataAddr 0 ≤ a ∧ a < s.dataAddr 3) ∨
    ∃ x, Fetches s (.storeRegs x) ∧ s.dataAddr 0 ≤ a ∧ a ≤ s.dataAddr x.val

/-- R22: register 15 changes only by one of the six flag writers, by an instruction whose destination it is, or never;
and after a flag writer that did not fault it holds 0 or 1, or after `SHL` 0 or 0x80 (decisions D6, D16, logs 16, 18). With
register 15 as the destination too that is so because the flag is written last (R23, decision D5, log 15). -/
def Obligations.OnlySixInstructionsWriteTheFlag : Prop :=
  ∀ s t : State, step s = .next t →
    (t.reg 15 ≠ s.reg 15 → ∃ i, Fetches s i ∧ (flagWriter i = true ∨ destination i = some 15)) ∧
    (∀ i, Fetches s i → flagWriter i = true → t.fault = none →
      (∀ x y, i ≠ .shl x y) → t.reg 15 = 0 ∨ t.reg 15 = 1) ∧
    (∀ x y, Fetches s (.shl x y) → t.reg 15 = 0 ∨ t.reg 15 = 0x80)

/-- R125's five classes: where `pc` is after every instruction that does not fault (`JP V0`: decision D12, log 21). The
conditions of the skips are R144 to R147, R236 and R237 (general knowledge G3, log 11; the ignored low nibble: D11,
log 12), the popped value is R141's (D24, log 7), the wait for a key is R238's. -/
def Obligations.PcMovesByItsClass : Prop :=
  ∀ (s : State) (i : Instr), Fetches s i → faultDue s = none →
    ∃ t, step s = .next t ∧ t.fault = none ∧ t.pc = pcAfter s i

/-- R230: `tick()` runs once in every step that neither faults nor finds the core halted, after the execute
phase, on the timers that phase leaves; each counts down by one and stays at 0; the pulse comes exactly when ST was 1. A step
that faults or is halted leaves both timers as they were and gives no pulse. (The timer instructions: TimerMoves.) -/
def Obligations.EveryRunningStepTicksOnce : Prop :=
  (∀ (s t : State) (i : Instr), Fetches s i →
    exec i { s with beep := false, unknown := none } = .next t → t.fault = none →
    ∃ u, step s = .next u ∧ u.dt.toNat = t.dt.toNat - 1 ∧ u.st.toNat = t.st.toNat - 1 ∧
      (u.beep = true ↔ t.st.toNat = 1)) ∧
  (∀ s : State, FetchesUnknown s →
    ∃ u, step s = .next u ∧ u.dt.toNat = s.dt.toNat - 1 ∧ u.st.toNat = s.st.toNat - 1 ∧
      (u.beep = true ↔ s.st.toNat = 1)) ∧
  (∀ s u : State, step s = .next u → u.fault ≠ none → u.dt = s.dt ∧ u.st = s.st ∧ u.beep = false)

/-- R126, R129: a step reports exactly when a running core fetches `SYS` or a word that is no instruction, and it reports
that word and its address; a step that reports does not fault (decisions D28, D29, log 13). -/
def Obligations.ReportsAreExactlyTheUnknownWords : Prop :=
  ∀ s t : State, step s = .next t →
    (∀ u, t.unknown = some u ↔
      ((∃ nnn, Fetches s (.sys nnn)) ∨ FetchesUnknown s) ∧ u = ⟨wordAt s, s.pc⟩) ∧
    (t.unknown ≠ none → t.fault = none)

/-- R30: the key latch is read in three instructions only, and written by none: any other step of the same state with
other keys ends in the same state with those other keys. It is set by the host's own move, and reset leaves it to the host.
(R9 makes the latch an input of every step: that it stays in the state from step to step is log 3, and that reset keeps it
is log 26, both the model's choice.) -/
def Obligations.KeysReachOnlyThreeInstructions : Prop :=
  (∀ s t : State, step s = .next t → t.keys = s.keys) ∧
  (∀ (s : State) (k : BitVec 16),
    (∀ x, ¬ Fetches s (.skp x)) → (∀ x, ¬ Fetches s (.sknp x)) → (∀ x, ¬ Fetches s (.ldVxK x)) →
    ∃ t, step s = .next t ∧ step { s with keys := k } = .next { t with keys := k }) ∧
  (∀ (c : Console) (k : BitVec 16), c.apply (.setKeys k) = some { c with core := { c.core with keys := k } }) ∧
  (∀ c : Console, ∃ d, c.apply .reset = some d ∧ d.core.keys = c.core.keys)

/-- R5, R34, R171: the random byte reaches the core through `RND` only, and then only the destination register: two states
that differ only in their random bytes step to states that differ only in them, or, after `RND Vx`, in `V[x]` too. The
counter is the model's form of the input (log 4). -/
def Obligations.RandomBytesReachOnlyRnd : Prop :=
  ∀ (s : State) (d : Nat), ∃ t u, step s = .next t ∧ step { s with draws := d } = .next u ∧
    u = { t with v := u.v, draws := u.draws } ∧
    ((∀ x kk, ¬ Fetches s (.rnd x kk)) → u.v = t.v) ∧
    (∀ x kk, Fetches s (.rnd x kk) → ∀ r, r ≠ x → u.reg r = t.reg r)

/-- R27: "Entries at or above `sp` keep whatever they last held; nothing can observe them": two states that differ only
there step to states that differ only there. -/
def Obligations.DeadStackEntriesAreUnobservable : Prop :=
  ∀ (s : State) (stack' : Vector Word 16), (∀ k, (h : k < 16) → k < s.sp.val → stack'[k] = s.stack[k]) →
    ∃ t u, step s = .next t ∧ step { s with stack := stack' } = .next u ∧
      u = { t with stack := u.stack } ∧ ∀ k, (h : k < 16) → k < t.sp.val → u.stack[k] = t.stack[k]

/-- R283: from the self-jump every further step leaves all state unchanged except that the timers run down and the pulse
may come; it stays finished (the spec's own convention; the counter of random bytes is log 4). -/
def Obligations.FinishedProgramOnlyRunsDownTimers : Prop :=
  ∀ s : State, Finished s → ∃ t, step s = .next t ∧ Finished t ∧
    t = { s with dt := BitVec.ofNat 8 (s.dt.toNat - 1), st := BitVec.ofNat 8 (s.st.toNat - 1),
                 beep := decide (s.st.toNat = 1), unknown := none, draws := s.draws + 1 }

/-! ### Control transfer (the execute phase; the tick follows it in the step) -/

/-- R140: `SYS` reports its word and address and advances, nothing else (decisions D28, D29, log 13). -/
def Obligations.SysReportsAndAdvances : Prop :=
  ∀ (nnn : BitVec 12) (s : State), ∃ t, exec (.sys nnn) s = .next t ∧
    (∃ u, t.unknown = some u ∧ u.word.toNat = nnn.toNat ∧ u.pc = s.pc) ∧ t.pc = s.pc + 2 ∧
    Frame { report := true } s t

/-- R141: `RET` with an entry in use pops it and adds 2, leaving the entry; with none it is `STACK_UNDERFLOW` at this
`pc` with nothing changed (decisions D2, D24, log 7). -/
def Obligations.RetPopsAndAddsTwo : Prop :=
  ∀ (z : BitVec 4) (s : State),
    (∀ h : 0 < s.sp.val, ∃ t, exec (.ret z) s = .next t ∧ t.sp.val = s.sp.val - 1 ∧ t.stack = s.stack ∧
      t.pc = s.stack[s.sp.val - 1]'(by omega) + 2 ∧ Frame { stack := true } s t) ∧
    (s.sp.val = 0 → ∃ t, exec (.ret z) s = .next t ∧ Faulted .stackUnderflow s.pc s t)

/-- R142: `JP addr` sets `pc` to the 12-bit address, adds nothing, and changes nothing else; its word is `1nnn`. -/
def Obligations.JpGoesToItsAddress : Prop :=
  ∀ (nnn : BitVec 12) (s : State), (encode (.jp nnn)).toNat = 0x1000 + nnn.toNat ∧
    ∃ t, exec (.jp nnn) s = .next t ∧ t.pc.toNat = nnn.toNat ∧ Frame {} s t

/-- R143: `CALL` with room pushes the address of the `CALL` itself and jumps, adding nothing; with 16 entries in use it is
`STACK_OVERFLOW` at this `pc` with nothing changed (decisions D2, D24, log 7). -/
def Obligations.CallPushesItsOwnAddress : Prop :=
  ∀ (nnn : BitVec 12) (s : State),
    (∀ h : s.sp.val < 16, ∃ t, exec (.call nnn) s = .next t ∧ t.stack[s.sp.val]'h = s.pc ∧
      (∀ k, (hk : k < 16) → k ≠ s.sp.val → t.stack[k] = s.stack[k]) ∧ t.sp.val = s.sp.val + 1 ∧
      t.pc.toNat = nnn.toNat ∧ Frame { stack := true } s t) ∧
    (s.sp.val = 16 → ∃ t, exec (.call nnn) s = .next t ∧ Faulted .stackOverflow s.pc s t)

/-- R144 to R147: the four register skips add 4 when their condition holds and 2 when it does not, and change nothing else
(the conditions: general knowledge G3, log 11; the low nibble: decision D11, log 12). -/
def Obligations.SkipsAddFourOrTwo : Prop :=
  ∀ (x y : RegIx) (kk : Byte) (z : BitVec 4) (s : State),
    (∃ t, exec (.seByte x kk) s = .next t ∧
      t.pc = (if (s.reg x).toNat = kk.toNat then s.pc + 4 else s.pc + 2) ∧ Frame {} s t) ∧
    (∃ t, exec (.sneByte x kk) s = .next t ∧
      t.pc = (if (s.reg x).toNat ≠ kk.toNat then s.pc + 4 else s.pc + 2) ∧ Frame {} s t) ∧
    (∃ t, exec (.seReg x y z) s = .next t ∧
      t.pc = (if (s.reg x).toNat = (s.reg y).toNat then s.pc + 4 else s.pc + 2) ∧ Frame {} s t) ∧
    (∃ t, exec (.sneReg x y z) s = .next t ∧
      t.pc = (if (s.reg x).toNat ≠ (s.reg y).toNat then s.pc + 4 else s.pc + 2) ∧ Frame {} s t)

/-- R148: `JP V0,addr` sets `pc` to `nnn + V0`, which never wraps, and adds no 2 (general knowledge G3, decision D12,
logs 11, 21). -/
def Obligations.JpV0AddsRegisterZero : Prop :=
  ∀ (nnn : BitVec 12) (s : State), ∃ t, exec (.jpV0 nnn) s = .next t ∧
    t.pc.toNat = nnn.toNat + (s.reg 0).toNat ∧ Frame {} s t

/-! ### Registers -/

/-- R160 to R165: the six register writes without a flag, for every destination, register 15 included (operations: general
knowledge G3, log 11; no flag: decision D16, log 18). -/
def Obligations.PlainRegisterWrites : Prop :=
  ∀ (x y : RegIx) (kk : Byte) (s : State),
    (∃ t, exec (.ldByte x kk) s = .next t ∧ t.reg x = kk ∧ t.pc = s.pc + 2 ∧ Frame { regs := (· = x) } s t) ∧
    (∃ t, exec (.addByte x kk) s = .next t ∧ (t.reg x).toNat = ((s.reg x).toNat + kk.toNat) % 256 ∧
      t.pc = s.pc + 2 ∧ Frame { regs := (· = x) } s t) ∧
    (∃ t, exec (.ldReg x y) s = .next t ∧ t.reg x = s.reg y ∧ t.pc = s.pc + 2 ∧ Frame { regs := (· = x) } s t) ∧
    (∃ t, exec (.orReg x y) s = .next t ∧
      (∀ b, (t.reg x).getLsbD b = ((s.reg x).getLsbD b || (s.reg y).getLsbD b)) ∧
      t.pc = s.pc + 2 ∧ Frame { regs := (· = x) } s t) ∧
    (∃ t, exec (.andReg x y) s = .next t ∧
      (∀ b, (t.reg x).getLsbD b = ((s.reg x).getLsbD b && (s.reg y).getLsbD b)) ∧
      t.pc = s.pc + 2 ∧ Frame { regs := (· = x) } s t) ∧
    (∃ t, exec (.xorReg x y) s = .next t ∧
      (∀ b, (t.reg x).getLsbD b = ((s.reg x).getLsbD b ^^ (s.reg y).getLsbD b)) ∧
      t.pc = s.pc + 2 ∧ Frame { regs := (· = x) } s t)

/-- R166, R173: `ADD Vx,Vy` truncates the sum to 8 bits and sets VF to the carry, last, so with `x = 15` the carry remains
(order: decision D5, log 15). -/
def Obligations.AddSetsSumAndCarry : Prop :=
  ∀ (x y : RegIx) (s : State), ∃ t, exec (.addReg x y) s = .next t ∧
    (x ≠ 15 → (t.reg x).toNat = ((s.reg x).toNat + (s.reg y).toNat) % 256) ∧
    (t.reg 15).toNat = (if (s.reg x).toNat + (s.reg y).toNat > 255 then 1 else 0) ∧
    t.pc = s.pc + 2 ∧ Frame { regs := fun r => r = x ∨ r = 15 } s t

/-- R167, R169, R173: `SUB` is `Vx - Vy` and `SUBN` is `Vy - Vx`, wrapping by 256, with VF 1 exactly when the minuend is
strictly greater, written last (roles: general knowledge G3, log 11; order: decision D5, log 15). -/
def Obligations.SubtractionsSetDifferenceAndFlag : Prop :=
  ∀ (x y : RegIx) (s : State),
    (∃ t, exec (.subReg x y) s = .next t ∧
      (x ≠ 15 → (t.reg x).toNat =
        (if (s.reg y).toNat ≤ (s.reg x).toNat then (s.reg x).toNat - (s.reg y).toNat
         else (s.reg x).toNat + 256 - (s.reg y).toNat)) ∧
      (t.reg 15).toNat = (if (s.reg x).toNat > (s.reg y).toNat then 1 else 0) ∧
      t.pc = s.pc + 2 ∧ Frame { regs := fun r => r = x ∨ r = 15 } s t) ∧
    (∃ t, exec (.subn x y) s = .next t ∧
      (x ≠ 15 → (t.reg x).toNat =
        (if (s.reg x).toNat ≤ (s.reg y).toNat then (s.reg y).toNat - (s.reg x).toNat
         else (s.reg y).toNat + 256 - (s.reg x).toNat)) ∧
      (t.reg 15).toNat = (if (s.reg y).toNat > (s.reg x).toNat then 1 else 0) ∧
      t.pc = s.pc + 2 ∧ Frame { regs := fun r => r = x ∨ r = 15 } s t)

/-- R168, R170, R173: the shifts move `V[x]` by one place, filling with 0, whatever `V[y]` holds; VF, written last, is the
old bit 0 after `SHR` and 0x80 or 0 after `SHL` (decisions D5, D6, D7; logs 15, 16). -/
def Obligations.ShiftsMoveOnePlace : Prop :=
  ∀ (x y : RegIx) (s : State),
    (∃ t, exec (.shr x y) s = .next t ∧ (x ≠ 15 → (t.reg x).toNat = (s.reg x).toNat / 2) ∧
      (t.reg 15).toNat = (s.reg x).toNat % 2 ∧
      t.pc = s.pc + 2 ∧ Frame { regs := fun r => r = x ∨ r = 15 } s t) ∧
    (∃ t, exec (.shl x y) s = .next t ∧ (x ≠ 15 → (t.reg x).toNat = (s.reg x).toNat * 2 % 256) ∧
      (t.reg 15).toNat = (if 128 ≤ (s.reg x).toNat then 128 else 0) ∧
      t.pc = s.pc + 2 ∧ Frame { regs := fun r => r = x ∨ r = 15 } s t)

/-- R171: `RND` masks this step's random byte, whatever that byte is (decision D20, log 4); VF is not written (D16, log 18). -/
def Obligations.RndMasksTheRandomByte : Prop :=
  ∀ (x : RegIx) (kk : Byte) (s : State), ∃ t, exec (.rnd x kk) s = .next t ∧
    (∀ b, (t.reg x).getLsbD b = (s.rnd.getLsbD b && kk.getLsbD b)) ∧
    t.pc = s.pc + 2 ∧ Frame { regs := (· = x) } s t

/-! ### Index and memory -/

/-- R190, R191, R192: the three writers of `I`: a 12-bit address, the 16-bit sum with `V[x]` and no flag, five times
`V[x]` with no mask (operations: general knowledge G3, log 11; decisions D14, D15, logs 18, 19). -/
def Obligations.IndexWrites : Prop :=
  ∀ (nnn : BitVec 12) (x : RegIx) (s : State),
    (∃ t, exec (.ldI nnn) s = .next t ∧ t.i.toNat = nnn.toNat ∧ t.pc = s.pc + 2 ∧ Frame { index := true } s t) ∧
    (∃ t, exec (.addIVx x) s = .next t ∧ t.i.toNat = (s.i.toNat + (s.reg x).toNat) % 65536 ∧
      t.pc = s.pc + 2 ∧ Frame { index := true } s t) ∧
    (∃ t, exec (.ldFVx x) s = .next t ∧ t.i.toNat = 5 * (s.reg x).toNat ∧
      t.pc = s.pc + 2 ∧ Frame { index := true } s t)

/-- R193: `LD B,Vx` stores hundreds, tens and ones at `I`, `I+1`, `I+2`, and no other byte (general knowledge G3, log 11). -/
def Obligations.BcdStoresThreeDigits : Prop :=
  ∀ (x : RegIx) (s : State), s.dataAddr 2 ≤ 0xFFF → ∃ t, exec (.ldBVx x) s = .next t ∧
    (t.readByte (s.dataAddr 0)).toNat = (s.reg x).toNat / 100 ∧
    (t.readByte (s.dataAddr 1)).toNat = (s.reg x).toNat / 10 % 10 ∧
    (t.readByte (s.dataAddr 2)).toNat = (s.reg x).toNat % 10 ∧
    t.pc = s.pc + 2 ∧ Frame { mem := fun a => s.dataAddr 0 ≤ a ∧ a < s.dataAddr 3 } s t

/-- R194: `LD [I],Vx` stores `V[0]` to `V[x]`, inclusive, at `I` to `I+x`, and no other byte; `I` is unchanged (decision
D13, log 20). -/
def Obligations.StoreWritesTheInclusiveRange : Prop :=
  ∀ (x : RegIx) (s : State), s.dataAddr x.val ≤ 0xFFF → ∃ t, exec (.storeRegs x) s = .next t ∧
    (∀ r : RegIx, r ≤ x → t.readByte (s.dataAddr r.val) = s.reg r) ∧
    t.pc = s.pc + 2 ∧ Frame { mem := fun a => s.dataAddr 0 ≤ a ∧ a ≤ s.dataAddr x.val } s t

/-- R195: `LD Vx,[I]` loads `V[0]` to `V[x]`, inclusive, from `I` to `I+x`, and no other register; `I` is unchanged
(decision D13, log 20). -/
def Obligations.LoadReadsTheInclusiveRange : Prop :=
  ∀ (x : RegIx) (s : State), s.dataAddr x.val ≤ 0xFFF → ∃ t, exec (.loadRegs x) s = .next t ∧
    (∀ r : RegIx, r ≤ x → t.reg r = s.readByte (s.dataAddr r.val)) ∧
    t.pc = s.pc + 2 ∧ Frame { regs := (· ≤ x) } s t

/-- R63, R193, R194, R195, R213, R251: a range that ends above 0xFFF is `MEM_OOB` with `max(I, 0x1000)`, before anything
is read or written; `DRW` with `n = 0` has no range (decisions D1, D3, log 6). -/
def Obligations.RangesBeyondMemoryFault : Prop :=
  ∀ (x y : RegIx) (n : BitVec 4) (s : State),
    (0xFFF < s.dataAddr 2 → ∃ t, exec (.ldBVx x) s = .next t ∧
      Faulted .memOob (BitVec.ofNat 16 (max s.i.toNat 0x1000)) s t) ∧
    (0xFFF < s.dataAddr x.val → ∃ t, exec (.storeRegs x) s = .next t ∧
      Faulted .memOob (BitVec.ofNat 16 (max s.i.toNat 0x1000)) s t) ∧
    (0xFFF < s.dataAddr x.val → ∃ t, exec (.loadRegs x) s = .next t ∧
      Faulted .memOob (BitVec.ofNat 16 (max s.i.toNat 0x1000)) s t) ∧
    (0 < n.toNat → 0xFFF < s.i.toNat + n.toNat - 1 → ∃ t, exec (.drw x y n) s = .next t ∧
      Faulted .memOob (BitVec.ofNat 16 (max s.i.toNat 0x1000)) s t)

/-- §8 of the source (vector A4): store registers 0..x, let anything happen to the registers, load 0..x from the same `I`:
the registers are what was stored (R194, R195; decision D13, log 20). -/
def Obligations.StoreThenLoadRoundTrip : Prop :=
  ∀ (x : RegIx) (s : State) (v : Vector Byte 16), s.dataAddr x.val ≤ 0xFFF →
    ∃ t u, exec (.storeRegs x) s = .next t ∧ exec (.loadRegs x) { t with v := v } = .next u ∧
      (∀ r : RegIx, r ≤ x → u.reg r = s.reg r) ∧ (∀ r : RegIx, x < r → u.reg r = v[r.val])

/-- R71: bytes stored over the next instruction are what the next step fetches, high byte first (decision D9, log 23). -/
def Obligations.StoredBytesAreFetchedNext : Prop :=
  ∀ (x : RegIx) (s : State), Fetches s (.storeRegs x) → s.i = s.pc + 2 → 1 ≤ x.val → s.dataAddr x.val ≤ 0xFFF →
    ∃ t, step s = .next t ∧ t.pc = s.i ∧ (wordAt t).toNat = 256 * (s.reg 0).toNat + (s.reg 1).toNat

/-- §8 of the source (vector A7): a call, then the return at its target, leaves `pc` just past the call and `sp` where it
was; the stale entry stays (R141, R143; decision D24, log 7). -/
def Obligations.CallThenReturnComesBack : Prop :=
  ∀ (s : State) (nnn : BitVec 12) (z : BitVec 4), Fetches s (.call nnn) → s.sp.val < 16 → nnn.toNat ≤ 0xFFE →
    decode (wordOfBytes (s.readByte nnn.toNat) (s.readByte (nnn.toNat + 1))) = .instr (.ret z) →
    ∃ t u, step s = .next t ∧ step t = .next u ∧ t.pc.toNat = nnn.toNat ∧ u.pc = s.pc + 2 ∧ u.sp = s.sp ∧
      u.fault = none ∧ (∀ k, (h : k < 16) → u.stack[k] = if k = s.sp.val then s.pc else s.stack[k]) ∧
      (∀ r, u.reg r = s.reg r) ∧ ∀ a, u.readByte a = s.readByte a

/-! ### Display -/

/-- R211: `CLS` unlights every cell of any screen, and changes nothing else. -/
def Obligations.ClsUnlightsEveryCell : Prop :=
  ∀ (z : BitVec 4) (s : State), (encode (.cls z)).toNat = 256 * z.toNat + 0xE0 ∧
    ∃ t, exec (.cls z) s = .next t ∧ (∀ c, c < 2048 → t.cell c = false) ∧
      t.pc = s.pc + 2 ∧ Frame { screen := true } s t

/-- R210, R212, R213, R214 (c) and (d): with its sprite inside memory, or no rows, `DRW` toggles exactly the cells its set
bits cover, each coordinate wrapped on its own; VF is 1 exactly when a covered cell was lit before, else 0; nothing else
changes. The coordinates are read after VF is zeroed (decision D17, log 17). -/
def Obligations.DrawTogglesExactlyTheSprite : Prop :=
  ∀ (x y : RegIx) (n : BitVec 4) (s : State), n.toNat = 0 ∨ s.i.toNat + n.toNat - 1 ≤ 0xFFF →
    ∃ t, exec (.drw x y n) s = .next t ∧
      (∀ c, c < 2048 → spriteCovers s (coord s x) (coord s y) n.toNat c → t.cell c = !s.cell c) ∧
      (∀ c, c < 2048 → ¬ spriteCovers s (coord s x) (coord s y) n.toNat c → t.cell c = s.cell c) ∧
      ((∃ c, c < 2048 ∧ spriteCovers s (coord s x) (coord s y) n.toNat c ∧ s.cell c = true) → t.reg 15 = 1) ∧
      ((∀ c, c < 2048 → spriteCovers s (coord s x) (coord s y) n.toNat c → s.cell c = false) → t.reg 15 = 0) ∧
      t.pc = s.pc + 2 ∧ Frame { regs := (· = 15), screen := true } s t

/-- R214 (a) and §8 of the source (vector A3): the same `DRW` twice restores the screen exactly (decision D17 where `x` or
`y` is 15, log 17). -/
def Obligations.DrawTwiceRestoresTheScreen : Prop :=
  ∀ (x y : RegIx) (n : BitVec 4) (s : State), n.toNat = 0 ∨ s.i.toNat + n.toNat - 1 ≤ 0xFFF →
    ∃ t u, exec (.drw x y n) s = .next t ∧ exec (.drw x y n) t = .next u ∧ u.fb = s.fb

/-- What the second of two equal `DRW` reports, by R212: a collision exactly when some covered cell was unlit before the
first. So R214 (b), a collision if and only if the sprite has a set bit, holds where every covered cell was unlit before
the first, and fails where all of them were lit: R212's pseudocode is followed (log 31; decision D17, log 17). -/
def Obligations.SecondDrawHitsTheCellsUnlitBefore : Prop :=
  ∀ (x y : RegIx) (n : BitVec 4) (s : State), n.toNat = 0 ∨ s.i.toNat + n.toNat - 1 ≤ 0xFFF →
    ∃ t u, exec (.drw x y n) s = .next t ∧ exec (.drw x y n) t = .next u ∧
      ((∃ c, c < 2048 ∧ spriteCovers s (coord s x) (coord s y) n.toNat c ∧ s.cell c = false) → u.reg 15 = 1) ∧
      ((∀ c, c < 2048 → spriteCovers s (coord s x) (coord s y) n.toNat c → s.cell c = true) → u.reg 15 = 0) ∧
      ((∀ c, c < 2048 → spriteCovers s (coord s x) (coord s y) n.toNat c → s.cell c = false) →
        u.reg 15 = if ∃ row, row < n.toNat ∧ s.readByte (s.i.toNat + row) ≠ 0 then 1 else 0)

/-- R210: the cell of column `cx` and row `cy` is number `64*cy + cx`, and a sprite bit at any column and row, however far
off an edge, toggles the one cell its coordinates reach modulo 64 and 32, and no other: nothing is clipped. -/
def Obligations.SpriteBitsWrapCellByCell : Prop :=
  (∀ (s : State) (cx cy : Nat), cx < 64 → cy < 32 → litAt s.fb cx cy = s.cell (64 * cy + cx)) ∧
  ∀ (c : Canvas) (x0 y0 col row k : Nat), k < 2048 →
    litAt (plot c (x0 + col) (y0 + row)).fb (k % 64) (k / 64) =
      if k = 64 * ((y0 + row) % 32) + (x0 + col) % 64 then !litAt c.fb (k % 64) (k / 64) else litAt c.fb (k % 64) (k / 64)

/-- R210, R214 (e): only the origins modulo 64 and 32 matter. -/
def Obligations.DrawOriginsWrap : Prop :=
  ∀ (s : State) (x0 y0 h : Nat), s.draw x0 y0 h = s.draw (x0 % 64) (y0 % 32) h

/-! ### Timers and keys -/

/-- R232, R233, R234: the three timer moves of the execute phase (general knowledge G3, log 11), and, since the tick comes
after them in the step (R128, R284), the timer read is the one before the tick, the timer written is ticked at once, and
`ST` loaded with 1 gives the pulse in that same step. -/
def Obligations.TimerMoves : Prop :=
  ∀ (x : RegIx) (s : State),
    (∃ t, exec (.ldVxDT x) s = .next t ∧ t.reg x = s.dt ∧ t.pc = s.pc + 2 ∧ Frame { regs := (· = x) } s t) ∧
    (∃ t, exec (.ldDTVx x) s = .next t ∧ t.dt = s.reg x ∧ t.pc = s.pc + 2 ∧ Frame { delay := true } s t) ∧
    (∃ t, exec (.ldSTVx x) s = .next t ∧ t.st = s.reg x ∧ t.pc = s.pc + 2 ∧ Frame { sound := true } s t) ∧
    (Fetches s (.ldVxDT x) → ∃ u, step s = .next u ∧ u.reg x = s.dt ∧ u.dt.toNat = s.dt.toNat - 1) ∧
    (Fetches s (.ldDTVx x) → ∃ u, step s = .next u ∧ u.dt.toNat = (s.reg x).toNat - 1) ∧
    (Fetches s (.ldSTVx x) → ∃ u, step s = .next u ∧ u.st.toNat = (s.reg x).toNat - 1 ∧
      (u.beep = true ↔ (s.reg x).toNat = 1))

/-- R236, R237: the key skips, for a key code 0..15 in the register; a value above 15 is `KEY_OOB` with that value and
nothing changed (conditions: general knowledge G3, log 11; decision D4, log 8). -/
def Obligations.KeySkipsTestTheLatch : Prop :=
  ∀ (x : RegIx) (s : State),
    ((s.reg x).toNat ≤ 15 →
      (∃ t, exec (.skp x) s = .next t ∧
        t.pc = (if s.keys.getLsbD (s.reg x).toNat then s.pc + 4 else s.pc + 2) ∧ Frame {} s t) ∧
      ∃ t, exec (.sknp x) s = .next t ∧
        t.pc = (if s.keys.getLsbD (s.reg x).toNat then s.pc + 2 else s.pc + 4) ∧ Frame {} s t) ∧
    (15 < (s.reg x).toNat →
      (∃ t, exec (.skp x) s = .next t ∧ Faulted .keyOob (BitVec.ofNat 16 (s.reg x).toNat) s t) ∧
      ∃ t, exec (.sknp x) s = .next t ∧ Faulted .keyOob (BitVec.ofNat 16 (s.reg x).toNat) s t)

/-- R238: with no key set `LD Vx,K` leaves everything, `pc` included, as it is; with a key set the lowest-indexed one goes
to `V[x]` and `pc` advances; nothing is kept of the wait. Its word is `Fx0A`. -/
def Obligations.KeyWaitStallsOrTakesTheLowestKey : Prop :=
  ∀ (x : RegIx) (s : State), (encode (.ldVxK x)).toNat = 0xF00A + 256 * x.val ∧
    ((∀ k, k < 16 → s.keys.getLsbD k = false) → exec (.ldVxK x) s = .next s) ∧
    (∀ k, k < 16 → s.keys.getLsbD k = true → (∀ j, j < k → s.keys.getLsbD j = false) →
      ∃ t, exec (.ldVxK x) s = .next t ∧ (t.reg x).toNat = k ∧ t.pc = s.pc + 2 ∧ Frame { regs := (· = x) } s t)

/-- R239: a stalled step changes nothing but the timers, the pulse and the outputs, and the same instruction is fetched
again; a step whose sample has a key set is the way out. (That the counter of random bytes goes up by one is the model's
choice, log 4; that the latch stands in the state is log 3, the outputs log 14.) -/
def Obligations.StalledStepOnlyTicks : Prop :=
  ∀ (x : RegIx) (s : State), Fetches s (.ldVxK x) →
    (s.keys = 0 → ∃ t, step s = .next t ∧ Fetches t (.ldVxK x) ∧
      t = { s with dt := BitVec.ofNat 8 (s.dt.toNat - 1), st := BitVec.ofNat 8 (s.st.toNat - 1),
                   beep := decide (s.st.toNat = 1), unknown := none, draws := s.draws + 1 }) ∧
    (s.keys ≠ 0 → ∃ t, step s = .next t ∧ t.pc = s.pc + 2)

/-- R28, R29, R231, R284: over any number of ticks a timer reads its start less that number, never below 0, and the pulse
comes in tick number `ST` and in no other (a one-step pulse: decision D22, log 24). -/
def Obligations.TimersRunDownAndBeepOnce : Prop :=
  ∀ (s : State) (n : Nat),
    ((State.tick^[n]) s).dt.toNat = s.dt.toNat - n ∧
    ((State.tick^[n]) s).st.toNat = s.st.toNat - n ∧
    (((State.tick^[n + 1]) s).beep = true ↔ s.st.toNat = n + 1)
end

