-- ==== Sys2Proof/Laws/Memory.lean ====
section
/-! SUPPORT. Memory: a write is read back, leaves every other byte alone, and keeps the canonical form. Reset with any
glyph set. -/

namespace Sys2Proof.Machine

theorem read_insert (m : Memory) (a : Nat) (u : Byte) (b : Nat) :
    Memory.read (Memory.insert a u m) b = if b = a then u else Memory.read m b := by
  induction m with
  | nil => simp [Memory.insert, Memory.read]
  | cons c m ih =>
    obtain ⟨d, w⟩ := c
    simp only [Memory.insert]
    split
    · simp [Memory.read]
    · split
      · subst_vars
        simp only [Memory.read]
        split <;> rfl
      · simp only [Memory.read, ih]
        split
        · subst_vars
          simp_all [eq_comm]
        · rfl

theorem read_erase (m : Memory) (a b : Nat) :
    Memory.read (Memory.erase a m) b = if b = a then unlisted a else Memory.read m b := by
  induction m with
  | nil =>
    simp only [Memory.erase, Memory.read]
    split <;> simp_all
  | cons c m ih =>
    obtain ⟨d, w⟩ := c
    simp only [Memory.erase]
    split
    · subst_vars
      simp only [ih, Memory.read]
      split <;> rfl
    · simp only [Memory.read, ih]
      split
      · subst_vars
        simp_all [eq_comm]
      · rfl

/-- Read after write, at the same address and at any other. -/
@[simp] theorem read_write (m : Memory) (a : Nat) (u : Byte) (b : Nat) :
    Memory.read (Memory.write m a u) b = if b = a then u else Memory.read m b := by
  unfold Memory.write
  split
  · rename_i h
    rw [read_erase, h]
  · rw [read_insert]

/-- What a range store leaves at any address: the stored byte inside the range, the old byte outside. -/
theorem read_writeList (m : Memory) (a : Nat) (us : List Byte) (b : Nat) :
    Memory.read (Memory.writeList m a us) b =
      if a ≤ b ∧ b < a + us.length then us.getD (b - a) 0 else Memory.read m b := by
  induction us generalizing m a with
  | nil => simp [Memory.writeList]
  | cons u us ih =>
    simp only [Memory.writeList, ih, read_write, List.length_cons]
    by_cases h1 : b = a
    · subst h1
      simp
    · by_cases h2 : a + 1 ≤ b ∧ b < a + 1 + us.length
      · obtain ⟨k, rfl⟩ : ∃ k, b = a + 1 + k := ⟨b - (a + 1), by omega⟩
        rw [if_pos h2, if_pos (by omega), show a + 1 + k - (a + 1) = k by omega,
          show a + 1 + k - a = k + 1 by omega]
        simp
      · rw [if_neg h2, if_neg h1, if_neg (by omega)]

theorem wfFrom_mono {lo lo' : Nat} {m : Memory} (h : Memory.wfFrom lo' m = true) (hl : lo ≤ lo') :
    Memory.wfFrom lo m = true := by
  cases m with
  | nil => rfl
  | cons c m =>
    obtain ⟨a, b⟩ := c
    simp only [Memory.wfFrom, Bool.and_eq_true, decide_eq_true_eq] at h ⊢
    exact ⟨⟨⟨by omega, h.1.1.2⟩, h.1.2⟩, h.2⟩

theorem wfFrom_insert {lo a : Nat} {u : Byte} {m : Memory} (h : Memory.wfFrom lo m = true) (hl : lo ≤ a)
    (ha : a < 4096) (hu : u ≠ unlisted a) : Memory.wfFrom lo (Memory.insert a u m) = true := by
  induction m generalizing lo with
  | nil => simp [Memory.insert, Memory.wfFrom, hl, ha, hu]
  | cons c m ih =>
    obtain ⟨d, w⟩ := c
    simp only [Memory.wfFrom, Bool.and_eq_true, decide_eq_true_eq, bne_iff_ne, ne_eq, Config.memSize] at h
    obtain ⟨⟨⟨h1, h2⟩, h3⟩, h4⟩ := h
    simp only [Memory.insert]
    split
    · simp [Memory.wfFrom, hl, ha, hu, h2, h3, h4]
      omega
    · split
      · subst_vars
        simp [Memory.wfFrom, hl, ha, hu, h4]
      · simp only [Memory.wfFrom, Bool.and_eq_true, decide_eq_true_eq, bne_iff_ne, ne_eq, Config.memSize]
        exact ⟨⟨⟨h1, h2⟩, h3⟩, ih h4 (by omega)⟩

theorem wfFrom_erase {lo a : Nat} {m : Memory} (h : Memory.wfFrom lo m = true) :
    Memory.wfFrom lo (Memory.erase a m) = true := by
  induction m generalizing lo with
  | nil => rfl
  | cons c m ih =>
    obtain ⟨d, w⟩ := c
    simp only [Memory.wfFrom, Bool.and_eq_true, decide_eq_true_eq] at h
    obtain ⟨⟨⟨h1, h2⟩, h3⟩, h4⟩ := h
    simp only [Memory.erase]
    split
    · exact ih (wfFrom_mono h4 (by omega))
    · simp only [Memory.wfFrom, Bool.and_eq_true, decide_eq_true_eq]
      exact ⟨⟨⟨h1, h2⟩, h3⟩, ih h4⟩

/-- A write inside the 4096 bytes keeps the canonical form. -/
theorem write_wf {m : Memory} {a : Nat} (u : Byte) (h : Memory.wf m = true) (ha : a < 4096) :
    Memory.wf (Memory.write m a u) = true := by
  unfold Memory.write
  split
  · exact wfFrom_erase h
  · exact wfFrom_insert h (Nat.zero_le a) ha ‹_›

/-- A range store inside the 4096 bytes keeps the canonical form. -/
theorem writeList_wf {m : Memory} {a : Nat} (us : List Byte) (h : Memory.wf m = true) (ha : a + us.length ≤ 4096) :
    Memory.wf (Memory.writeList m a us) = true := by
  induction us generalizing m a with
  | nil => exact h
  | cons u us ih =>
    simp only [List.length_cons] at ha
    exact ih (write_wf u h (by omega)) (by omega)

/-- Two canonical memories that read alike everywhere are the same list. -/
theorem eq_of_read_eq {m m' : Memory} (h : Memory.wf m = true) (h' : Memory.wf m' = true)
    (hr : ∀ a, Memory.read m a = Memory.read m' a) : m = m' := by
  have below : ∀ {lo : Nat} {n : Memory}, Memory.wfFrom lo n = true → ∀ a, a < lo → Memory.read n a = unlisted a := by
    intro lo n
    induction n generalizing lo with
    | nil => intros; rfl
    | cons c n ih =>
      obtain ⟨d, w⟩ := c
      intro hn a ha
      simp only [Memory.wfFrom, Bool.and_eq_true, decide_eq_true_eq] at hn
      rw [Memory.read, if_neg (by omega), ih hn.2 a (by omega)]
  have main : ∀ (n n' : Memory) (lo : Nat), Memory.wfFrom lo n = true → Memory.wfFrom lo n' = true →
      (∀ a, Memory.read n a = Memory.read n' a) → n = n' := by
    intro n
    induction n with
    | nil =>
      intro n' lo _ h' hr
      cases n' with
      | nil => rfl
      | cons c' n' =>
        obtain ⟨d, w⟩ := c'
        simp only [Memory.wfFrom, Bool.and_eq_true, decide_eq_true_eq, bne_iff_ne, ne_eq] at h'
        exact absurd (by simpa [Memory.read] using (hr d).symm) h'.1.2
    | cons c n ih =>
      obtain ⟨d, w⟩ := c
      intro n' lo h h' hr
      simp only [Memory.wfFrom, Bool.and_eq_true, decide_eq_true_eq, bne_iff_ne, ne_eq] at h
      cases n' with
      | nil => exact absurd (by simpa [Memory.read] using hr d) h.1.2
      | cons c' n' =>
        obtain ⟨d', w'⟩ := c'
        simp only [Memory.wfFrom, Bool.and_eq_true, decide_eq_true_eq, bne_iff_ne, ne_eq] at h'
        have hd : d = d' := by
          rcases Nat.lt_trichotomy d d' with hlt | heq | hgt
          · have := hr d
            rw [Memory.read, if_pos rfl, Memory.read, if_neg (by omega), below h'.2 d (by omega)] at this
            exact absurd this h.1.2
          · exact heq
          · have := hr d'
            rw [Memory.read, if_neg (by omega), below h.2 d' (by omega), Memory.read, if_pos rfl] at this
            exact absurd this.symm h'.1.2
        subst hd
        have hw : w = w' := by simpa [Memory.read] using hr d
        subst hw
        congr 1
        refine ih n' (d + 1) h.2 h'.2 fun a => ?_
        by_cases ha : a < d + 1
        · rw [below h.2 a ha, below h'.2 a ha]
        · have := hr a
          rwa [Memory.read, if_neg (by omega), Memory.read, if_neg (by omega)] at this
  exact main m m' 0 h h' hr

/-! ### Reset with a glyph set (R5, R37, R62) -/

theorem unlisted_above_glyphs {a : Nat} (h : 80 ≤ a) : unlisted a = 0 :=
  List.getD_eq_default glyphRom 0 (show glyphRom.length ≤ a from h)

/-- The glyph area holds the argument, every other byte is 0. -/
theorem read_resetWith (rom : GlyphRom) (a : Nat) :
    Memory.read (State.resetWith rom).mem a = if h : a < 80 then rom[a] else 0 := by
  simp only [State.resetWith, read_writeList, Vector.length_toList]
  by_cases h : a < 80
  · simp [h]
  · rw [if_neg (by omega), dif_neg h]
    exact unlisted_above_glyphs (by omega)

theorem resetWith_wf (rom : GlyphRom) : Memory.wf (State.resetWith rom).mem = true :=
  writeList_wf _ rfl (by simp)

/-- With the default glyph set nothing is listed. -/
theorem resetWith_default : State.resetWith GlyphRom.default = State.reset := by decide

end Sys2Proof.Machine
end

