-- ==== Sys2Proof/Laws/State.lean ====
section
/-! SUPPORT. What each named update of the state leaves in each field. -/

namespace Sys2Proof.Machine

variable (s : State)

@[simp] theorem setReg_v (r : RegIx) (b : Byte) : (s.setReg r b).v = s.v.set r.val b := rfl
@[simp] theorem setReg_i (r : RegIx) (b : Byte) : (s.setReg r b).i = s.i := rfl
@[simp] theorem setReg_pc (r : RegIx) (b : Byte) : (s.setReg r b).pc = s.pc := rfl
@[simp] theorem setReg_stack (r : RegIx) (b : Byte) : (s.setReg r b).stack = s.stack := rfl
@[simp] theorem setReg_sp (r : RegIx) (b : Byte) : (s.setReg r b).sp = s.sp := rfl
@[simp] theorem setReg_dt (r : RegIx) (b : Byte) : (s.setReg r b).dt = s.dt := rfl
@[simp] theorem setReg_st (r : RegIx) (b : Byte) : (s.setReg r b).st = s.st := rfl
@[simp] theorem setReg_mem (r : RegIx) (b : Byte) : (s.setReg r b).mem = s.mem := rfl
@[simp] theorem setReg_fb (r : RegIx) (b : Byte) : (s.setReg r b).fb = s.fb := rfl
@[simp] theorem setReg_keys (r : RegIx) (b : Byte) : (s.setReg r b).keys = s.keys := rfl
@[simp] theorem setReg_fault (r : RegIx) (b : Byte) : (s.setReg r b).fault = s.fault := rfl
@[simp] theorem setReg_beep (r : RegIx) (b : Byte) : (s.setReg r b).beep = s.beep := rfl
@[simp] theorem setReg_unknown (r : RegIx) (b : Byte) : (s.setReg r b).unknown = s.unknown := rfl
@[simp] theorem setReg_draws (r : RegIx) (b : Byte) : (s.setReg r b).draws = s.draws := rfl

@[simp] theorem setRegFlag_v (x : RegIx) (b f : Byte) : (s.setRegFlag x b f).v = (s.v.set x.val b).set 15 f := rfl
@[simp] theorem setRegFlag_i (x : RegIx) (b f : Byte) : (s.setRegFlag x b f).i = s.i := rfl
@[simp] theorem setRegFlag_pc (x : RegIx) (b f : Byte) : (s.setRegFlag x b f).pc = s.pc := rfl
@[simp] theorem setRegFlag_stack (x : RegIx) (b f : Byte) : (s.setRegFlag x b f).stack = s.stack := rfl
@[simp] theorem setRegFlag_sp (x : RegIx) (b f : Byte) : (s.setRegFlag x b f).sp = s.sp := rfl
@[simp] theorem setRegFlag_dt (x : RegIx) (b f : Byte) : (s.setRegFlag x b f).dt = s.dt := rfl
@[simp] theorem setRegFlag_st (x : RegIx) (b f : Byte) : (s.setRegFlag x b f).st = s.st := rfl
@[simp] theorem setRegFlag_mem (x : RegIx) (b f : Byte) : (s.setRegFlag x b f).mem = s.mem := rfl
@[simp] theorem setRegFlag_fb (x : RegIx) (b f : Byte) : (s.setRegFlag x b f).fb = s.fb := rfl
@[simp] theorem setRegFlag_keys (x : RegIx) (b f : Byte) : (s.setRegFlag x b f).keys = s.keys := rfl
@[simp] theorem setRegFlag_fault (x : RegIx) (b f : Byte) : (s.setRegFlag x b f).fault = s.fault := rfl
@[simp] theorem setRegFlag_beep (x : RegIx) (b f : Byte) : (s.setRegFlag x b f).beep = s.beep := rfl
@[simp] theorem setRegFlag_unknown (x : RegIx) (b f : Byte) : (s.setRegFlag x b f).unknown = s.unknown := rfl
@[simp] theorem setRegFlag_draws (x : RegIx) (b f : Byte) : (s.setRegFlag x b f).draws = s.draws := rfl

@[simp] theorem setIndex_v (w : Word) : (s.setIndex w).v = s.v := rfl
@[simp] theorem setIndex_i (w : Word) : (s.setIndex w).i = w := rfl
@[simp] theorem setIndex_pc (w : Word) : (s.setIndex w).pc = s.pc := rfl
@[simp] theorem setIndex_stack (w : Word) : (s.setIndex w).stack = s.stack := rfl
@[simp] theorem setIndex_sp (w : Word) : (s.setIndex w).sp = s.sp := rfl
@[simp] theorem setIndex_dt (w : Word) : (s.setIndex w).dt = s.dt := rfl
@[simp] theorem setIndex_st (w : Word) : (s.setIndex w).st = s.st := rfl
@[simp] theorem setIndex_mem (w : Word) : (s.setIndex w).mem = s.mem := rfl
@[simp] theorem setIndex_fb (w : Word) : (s.setIndex w).fb = s.fb := rfl
@[simp] theorem setIndex_keys (w : Word) : (s.setIndex w).keys = s.keys := rfl
@[simp] theorem setIndex_fault (w : Word) : (s.setIndex w).fault = s.fault := rfl
@[simp] theorem setIndex_beep (w : Word) : (s.setIndex w).beep = s.beep := rfl
@[simp] theorem setIndex_unknown (w : Word) : (s.setIndex w).unknown = s.unknown := rfl
@[simp] theorem setIndex_draws (w : Word) : (s.setIndex w).draws = s.draws := rfl

@[simp] theorem setDelay_v (b : Byte) : (s.setDelay b).v = s.v := rfl
@[simp] theorem setDelay_i (b : Byte) : (s.setDelay b).i = s.i := rfl
@[simp] theorem setDelay_pc (b : Byte) : (s.setDelay b).pc = s.pc := rfl
@[simp] theorem setDelay_stack (b : Byte) : (s.setDelay b).stack = s.stack := rfl
@[simp] theorem setDelay_sp (b : Byte) : (s.setDelay b).sp = s.sp := rfl
@[simp] theorem setDelay_dt (b : Byte) : (s.setDelay b).dt = b := rfl
@[simp] theorem setDelay_st (b : Byte) : (s.setDelay b).st = s.st := rfl
@[simp] theorem setDelay_mem (b : Byte) : (s.setDelay b).mem = s.mem := rfl
@[simp] theorem setDelay_fb (b : Byte) : (s.setDelay b).fb = s.fb := rfl
@[simp] theorem setDelay_keys (b : Byte) : (s.setDelay b).keys = s.keys := rfl
@[simp] theorem setDelay_fault (b : Byte) : (s.setDelay b).fault = s.fault := rfl
@[simp] theorem setDelay_beep (b : Byte) : (s.setDelay b).beep = s.beep := rfl
@[simp] theorem setDelay_unknown (b : Byte) : (s.setDelay b).unknown = s.unknown := rfl
@[simp] theorem setDelay_draws (b : Byte) : (s.setDelay b).draws = s.draws := rfl

@[simp] theorem setSound_v (b : Byte) : (s.setSound b).v = s.v := rfl
@[simp] theorem setSound_i (b : Byte) : (s.setSound b).i = s.i := rfl
@[simp] theorem setSound_pc (b : Byte) : (s.setSound b).pc = s.pc := rfl
@[simp] theorem setSound_stack (b : Byte) : (s.setSound b).stack = s.stack := rfl
@[simp] theorem setSound_sp (b : Byte) : (s.setSound b).sp = s.sp := rfl
@[simp] theorem setSound_dt (b : Byte) : (s.setSound b).dt = s.dt := rfl
@[simp] theorem setSound_st (b : Byte) : (s.setSound b).st = b := rfl
@[simp] theorem setSound_mem (b : Byte) : (s.setSound b).mem = s.mem := rfl
@[simp] theorem setSound_fb (b : Byte) : (s.setSound b).fb = s.fb := rfl
@[simp] theorem setSound_keys (b : Byte) : (s.setSound b).keys = s.keys := rfl
@[simp] theorem setSound_fault (b : Byte) : (s.setSound b).fault = s.fault := rfl
@[simp] theorem setSound_beep (b : Byte) : (s.setSound b).beep = s.beep := rfl
@[simp] theorem setSound_unknown (b : Byte) : (s.setSound b).unknown = s.unknown := rfl
@[simp] theorem setSound_draws (b : Byte) : (s.setSound b).draws = s.draws := rfl

@[simp] theorem advance_v : (s.advance).v = s.v := rfl
@[simp] theorem advance_i : (s.advance).i = s.i := rfl
@[simp] theorem advance_pc : (s.advance).pc = s.pc + 2 := rfl
@[simp] theorem advance_stack : (s.advance).stack = s.stack := rfl
@[simp] theorem advance_sp : (s.advance).sp = s.sp := rfl
@[simp] theorem advance_dt : (s.advance).dt = s.dt := rfl
@[simp] theorem advance_st : (s.advance).st = s.st := rfl
@[simp] theorem advance_mem : (s.advance).mem = s.mem := rfl
@[simp] theorem advance_fb : (s.advance).fb = s.fb := rfl
@[simp] theorem advance_keys : (s.advance).keys = s.keys := rfl
@[simp] theorem advance_fault : (s.advance).fault = s.fault := rfl
@[simp] theorem advance_beep : (s.advance).beep = s.beep := rfl
@[simp] theorem advance_unknown : (s.advance).unknown = s.unknown := rfl
@[simp] theorem advance_draws : (s.advance).draws = s.draws := rfl

@[simp] theorem skipIf_v (c : Bool) : (s.skipIf c).v = s.v := rfl
@[simp] theorem skipIf_i (c : Bool) : (s.skipIf c).i = s.i := rfl
@[simp] theorem skipIf_pc (c : Bool) : (s.skipIf c).pc = s.pc + (if c then 4 else 2) := rfl
@[simp] theorem skipIf_stack (c : Bool) : (s.skipIf c).stack = s.stack := rfl
@[simp] theorem skipIf_sp (c : Bool) : (s.skipIf c).sp = s.sp := rfl
@[simp] theorem skipIf_dt (c : Bool) : (s.skipIf c).dt = s.dt := rfl
@[simp] theorem skipIf_st (c : Bool) : (s.skipIf c).st = s.st := rfl
@[simp] theorem skipIf_mem (c : Bool) : (s.skipIf c).mem = s.mem := rfl
@[simp] theorem skipIf_fb (c : Bool) : (s.skipIf c).fb = s.fb := rfl
@[simp] theorem skipIf_keys (c : Bool) : (s.skipIf c).keys = s.keys := rfl
@[simp] theorem skipIf_fault (c : Bool) : (s.skipIf c).fault = s.fault := rfl
@[simp] theorem skipIf_beep (c : Bool) : (s.skipIf c).beep = s.beep := rfl
@[simp] theorem skipIf_unknown (c : Bool) : (s.skipIf c).unknown = s.unknown := rfl
@[simp] theorem skipIf_draws (c : Bool) : (s.skipIf c).draws = s.draws := rfl

@[simp] theorem jumpTo_v (w : Word) : (s.jumpTo w).v = s.v := rfl
@[simp] theorem jumpTo_i (w : Word) : (s.jumpTo w).i = s.i := rfl
@[simp] theorem jumpTo_pc (w : Word) : (s.jumpTo w).pc = w := rfl
@[simp] theorem jumpTo_stack (w : Word) : (s.jumpTo w).stack = s.stack := rfl
@[simp] theorem jumpTo_sp (w : Word) : (s.jumpTo w).sp = s.sp := rfl
@[simp] theorem jumpTo_dt (w : Word) : (s.jumpTo w).dt = s.dt := rfl
@[simp] theorem jumpTo_st (w : Word) : (s.jumpTo w).st = s.st := rfl
@[simp] theorem jumpTo_mem (w : Word) : (s.jumpTo w).mem = s.mem := rfl
@[simp] theorem jumpTo_fb (w : Word) : (s.jumpTo w).fb = s.fb := rfl
@[simp] theorem jumpTo_keys (w : Word) : (s.jumpTo w).keys = s.keys := rfl
@[simp] theorem jumpTo_fault (w : Word) : (s.jumpTo w).fault = s.fault := rfl
@[simp] theorem jumpTo_beep (w : Word) : (s.jumpTo w).beep = s.beep := rfl
@[simp] theorem jumpTo_unknown (w : Word) : (s.jumpTo w).unknown = s.unknown := rfl
@[simp] theorem jumpTo_draws (w : Word) : (s.jumpTo w).draws = s.draws := rfl

@[simp] theorem raise_v (c : FaultCode) (w : Word) : (s.raise c w).v = s.v := rfl
@[simp] theorem raise_i (c : FaultCode) (w : Word) : (s.raise c w).i = s.i := rfl
@[simp] theorem raise_pc (c : FaultCode) (w : Word) : (s.raise c w).pc = s.pc := rfl
@[simp] theorem raise_stack (c : FaultCode) (w : Word) : (s.raise c w).stack = s.stack := rfl
@[simp] theorem raise_sp (c : FaultCode) (w : Word) : (s.raise c w).sp = s.sp := rfl
@[simp] theorem raise_dt (c : FaultCode) (w : Word) : (s.raise c w).dt = s.dt := rfl
@[simp] theorem raise_st (c : FaultCode) (w : Word) : (s.raise c w).st = s.st := rfl
@[simp] theorem raise_mem (c : FaultCode) (w : Word) : (s.raise c w).mem = s.mem := rfl
@[simp] theorem raise_fb (c : FaultCode) (w : Word) : (s.raise c w).fb = s.fb := rfl
@[simp] theorem raise_keys (c : FaultCode) (w : Word) : (s.raise c w).keys = s.keys := rfl
@[simp] theorem raise_fault (c : FaultCode) (w : Word) : (s.raise c w).fault = some ⟨c, w⟩ := rfl
@[simp] theorem raise_beep (c : FaultCode) (w : Word) : (s.raise c w).beep = false := rfl
@[simp] theorem raise_unknown (c : FaultCode) (w : Word) : (s.raise c w).unknown = none := rfl
@[simp] theorem raise_draws (c : FaultCode) (w : Word) : (s.raise c w).draws = s.draws := rfl

@[simp] theorem unknownOpcode_v (w : Word) : (s.unknownOpcode w).v = s.v := rfl
@[simp] theorem unknownOpcode_i (w : Word) : (s.unknownOpcode w).i = s.i := rfl
@[simp] theorem unknownOpcode_pc (w : Word) : (s.unknownOpcode w).pc = s.pc + 2 := rfl
@[simp] theorem unknownOpcode_stack (w : Word) : (s.unknownOpcode w).stack = s.stack := rfl
@[simp] theorem unknownOpcode_sp (w : Word) : (s.unknownOpcode w).sp = s.sp := rfl
@[simp] theorem unknownOpcode_dt (w : Word) : (s.unknownOpcode w).dt = s.dt := rfl
@[simp] theorem unknownOpcode_st (w : Word) : (s.unknownOpcode w).st = s.st := rfl
@[simp] theorem unknownOpcode_mem (w : Word) : (s.unknownOpcode w).mem = s.mem := rfl
@[simp] theorem unknownOpcode_fb (w : Word) : (s.unknownOpcode w).fb = s.fb := rfl
@[simp] theorem unknownOpcode_keys (w : Word) : (s.unknownOpcode w).keys = s.keys := rfl
@[simp] theorem unknownOpcode_fault (w : Word) : (s.unknownOpcode w).fault = s.fault := rfl
@[simp] theorem unknownOpcode_beep (w : Word) : (s.unknownOpcode w).beep = s.beep := rfl
@[simp] theorem unknownOpcode_unknown (w : Word) : (s.unknownOpcode w).unknown = some ⟨w, s.pc⟩ := rfl
@[simp] theorem unknownOpcode_draws (w : Word) : (s.unknownOpcode w).draws = s.draws := rfl

@[simp] theorem storeBytes_v (a : Nat) (us : List Byte) : (s.storeBytes a us).v = s.v := rfl
@[simp] theorem storeBytes_i (a : Nat) (us : List Byte) : (s.storeBytes a us).i = s.i := rfl
@[simp] theorem storeBytes_pc (a : Nat) (us : List Byte) : (s.storeBytes a us).pc = s.pc := rfl
@[simp] theorem storeBytes_stack (a : Nat) (us : List Byte) : (s.storeBytes a us).stack = s.stack := rfl
@[simp] theorem storeBytes_sp (a : Nat) (us : List Byte) : (s.storeBytes a us).sp = s.sp := rfl
@[simp] theorem storeBytes_dt (a : Nat) (us : List Byte) : (s.storeBytes a us).dt = s.dt := rfl
@[simp] theorem storeBytes_st (a : Nat) (us : List Byte) : (s.storeBytes a us).st = s.st := rfl
@[simp] theorem storeBytes_mem (a : Nat) (us : List Byte) : (s.storeBytes a us).mem = Memory.writeList s.mem a us := rfl
@[simp] theorem storeBytes_fb (a : Nat) (us : List Byte) : (s.storeBytes a us).fb = s.fb := rfl
@[simp] theorem storeBytes_keys (a : Nat) (us : List Byte) : (s.storeBytes a us).keys = s.keys := rfl
@[simp] theorem storeBytes_fault (a : Nat) (us : List Byte) : (s.storeBytes a us).fault = s.fault := rfl
@[simp] theorem storeBytes_beep (a : Nat) (us : List Byte) : (s.storeBytes a us).beep = s.beep := rfl
@[simp] theorem storeBytes_unknown (a : Nat) (us : List Byte) : (s.storeBytes a us).unknown = s.unknown := rfl
@[simp] theorem storeBytes_draws (a : Nat) (us : List Byte) : (s.storeBytes a us).draws = s.draws := rfl

@[simp] theorem loadFrom_v (a n : Nat) : (s.loadFrom a n).v = readRegs s.mem a n s.v := rfl
@[simp] theorem loadFrom_i (a n : Nat) : (s.loadFrom a n).i = s.i := rfl
@[simp] theorem loadFrom_pc (a n : Nat) : (s.loadFrom a n).pc = s.pc := rfl
@[simp] theorem loadFrom_stack (a n : Nat) : (s.loadFrom a n).stack = s.stack := rfl
@[simp] theorem loadFrom_sp (a n : Nat) : (s.loadFrom a n).sp = s.sp := rfl
@[simp] theorem loadFrom_dt (a n : Nat) : (s.loadFrom a n).dt = s.dt := rfl
@[simp] theorem loadFrom_st (a n : Nat) : (s.loadFrom a n).st = s.st := rfl
@[simp] theorem loadFrom_mem (a n : Nat) : (s.loadFrom a n).mem = s.mem := rfl
@[simp] theorem loadFrom_fb (a n : Nat) : (s.loadFrom a n).fb = s.fb := rfl
@[simp] theorem loadFrom_keys (a n : Nat) : (s.loadFrom a n).keys = s.keys := rfl
@[simp] theorem loadFrom_fault (a n : Nat) : (s.loadFrom a n).fault = s.fault := rfl
@[simp] theorem loadFrom_beep (a n : Nat) : (s.loadFrom a n).beep = s.beep := rfl
@[simp] theorem loadFrom_unknown (a n : Nat) : (s.loadFrom a n).unknown = s.unknown := rfl
@[simp] theorem loadFrom_draws (a n : Nat) : (s.loadFrom a n).draws = s.draws := rfl

@[simp] theorem setScreen_v (fb : Vector (BitVec 64) 32) : (s.setScreen fb).v = s.v := rfl
@[simp] theorem setScreen_i (fb : Vector (BitVec 64) 32) : (s.setScreen fb).i = s.i := rfl
@[simp] theorem setScreen_pc (fb : Vector (BitVec 64) 32) : (s.setScreen fb).pc = s.pc := rfl
@[simp] theorem setScreen_stack (fb : Vector (BitVec 64) 32) : (s.setScreen fb).stack = s.stack := rfl
@[simp] theorem setScreen_sp (fb : Vector (BitVec 64) 32) : (s.setScreen fb).sp = s.sp := rfl
@[simp] theorem setScreen_dt (fb : Vector (BitVec 64) 32) : (s.setScreen fb).dt = s.dt := rfl
@[simp] theorem setScreen_st (fb : Vector (BitVec 64) 32) : (s.setScreen fb).st = s.st := rfl
@[simp] theorem setScreen_mem (fb : Vector (BitVec 64) 32) : (s.setScreen fb).mem = s.mem := rfl
@[simp] theorem setScreen_fb (fb : Vector (BitVec 64) 32) : (s.setScreen fb).fb = fb := rfl
@[simp] theorem setScreen_keys (fb : Vector (BitVec 64) 32) : (s.setScreen fb).keys = s.keys := rfl
@[simp] theorem setScreen_fault (fb : Vector (BitVec 64) 32) : (s.setScreen fb).fault = s.fault := rfl
@[simp] theorem setScreen_beep (fb : Vector (BitVec 64) 32) : (s.setScreen fb).beep = s.beep := rfl
@[simp] theorem setScreen_unknown (fb : Vector (BitVec 64) 32) : (s.setScreen fb).unknown = s.unknown := rfl
@[simp] theorem setScreen_draws (fb : Vector (BitVec 64) 32) : (s.setScreen fb).draws = s.draws := rfl

@[simp] theorem clearOutputs_v : (s.clearOutputs).v = s.v := rfl
@[simp] theorem clearOutputs_i : (s.clearOutputs).i = s.i := rfl
@[simp] theorem clearOutputs_pc : (s.clearOutputs).pc = s.pc := rfl
@[simp] theorem clearOutputs_stack : (s.clearOutputs).stack = s.stack := rfl
@[simp] theorem clearOutputs_sp : (s.clearOutputs).sp = s.sp := rfl
@[simp] theorem clearOutputs_dt : (s.clearOutputs).dt = s.dt := rfl
@[simp] theorem clearOutputs_st : (s.clearOutputs).st = s.st := rfl
@[simp] theorem clearOutputs_mem : (s.clearOutputs).mem = s.mem := rfl
@[simp] theorem clearOutputs_fb : (s.clearOutputs).fb = s.fb := rfl
@[simp] theorem clearOutputs_keys : (s.clearOutputs).keys = s.keys := rfl
@[simp] theorem clearOutputs_fault : (s.clearOutputs).fault = s.fault := rfl
@[simp] theorem clearOutputs_beep : (s.clearOutputs).beep = false := rfl
@[simp] theorem clearOutputs_unknown : (s.clearOutputs).unknown = none := rfl
@[simp] theorem clearOutputs_draws : (s.clearOutputs).draws = s.draws := rfl

@[simp] theorem tick_v : (s.tick).v = s.v := rfl
@[simp] theorem tick_i : (s.tick).i = s.i := rfl
@[simp] theorem tick_pc : (s.tick).pc = s.pc := rfl
@[simp] theorem tick_stack : (s.tick).stack = s.stack := rfl
@[simp] theorem tick_sp : (s.tick).sp = s.sp := rfl
@[simp] theorem tick_dt : (s.tick).dt = countDown s.dt := rfl
@[simp] theorem tick_st : (s.tick).st = countDown s.st := rfl
@[simp] theorem tick_mem : (s.tick).mem = s.mem := rfl
@[simp] theorem tick_fb : (s.tick).fb = s.fb := rfl
@[simp] theorem tick_keys : (s.tick).keys = s.keys := rfl
@[simp] theorem tick_fault : (s.tick).fault = s.fault := rfl
@[simp] theorem tick_beep : (s.tick).beep = decide (s.st = 1) := rfl
@[simp] theorem tick_unknown : (s.tick).unknown = s.unknown := rfl
@[simp] theorem tick_draws : (s.tick).draws = s.draws := rfl

@[simp] theorem nextDraw_v : (s.nextDraw).v = s.v := rfl
@[simp] theorem nextDraw_i : (s.nextDraw).i = s.i := rfl
@[simp] theorem nextDraw_pc : (s.nextDraw).pc = s.pc := rfl
@[simp] theorem nextDraw_stack : (s.nextDraw).stack = s.stack := rfl
@[simp] theorem nextDraw_sp : (s.nextDraw).sp = s.sp := rfl
@[simp] theorem nextDraw_dt : (s.nextDraw).dt = s.dt := rfl
@[simp] theorem nextDraw_st : (s.nextDraw).st = s.st := rfl
@[simp] theorem nextDraw_mem : (s.nextDraw).mem = s.mem := rfl
@[simp] theorem nextDraw_fb : (s.nextDraw).fb = s.fb := rfl
@[simp] theorem nextDraw_keys : (s.nextDraw).keys = s.keys := rfl
@[simp] theorem nextDraw_fault : (s.nextDraw).fault = s.fault := rfl
@[simp] theorem nextDraw_beep : (s.nextDraw).beep = s.beep := rfl
@[simp] theorem nextDraw_unknown : (s.nextDraw).unknown = s.unknown := rfl
@[simp] theorem nextDraw_draws : (s.nextDraw).draws = s.draws + 1 := rfl

end Sys2Proof.Machine
end

