-- ==== Sys2Proof/Laws/Ops.lean ====
section
/-! SUPPORT. One lemma per shared operation that says once everything it can do. -/

namespace Sys2Proof.Machine

variable (s : State)

/-! ### Registers -/

@[simp] theorem reg_setReg (r q : RegIx) (b : Byte) : (s.setReg r b).reg q = if q = r then b else s.reg q := by
  by_cases h : q = r
  · simp [State.reg, State.setReg, h]
  · simp [State.reg, State.setReg, h, Vector.getElem_set_ne _ _ (fun e => h (Fin.ext e.symm))]

/-- Result and flag of a flag-writing instruction: register 15 holds the flag, whatever `x` is (R23). -/
@[simp] theorem reg_setRegFlag (x q : RegIx) (b f : Byte) :
    (s.setRegFlag x b f).reg q = if q = 15 then f else if q = x then b else s.reg q := by
  show ((s.setReg x b).setReg 15 f).reg q = _
  rw [reg_setReg, reg_setReg]

@[simp] theorem reg_setIndex (w : Word) (q : RegIx) : (s.setIndex w).reg q = s.reg q := rfl
@[simp] theorem reg_setDelay (b : Byte) (q : RegIx) : (s.setDelay b).reg q = s.reg q := rfl
@[simp] theorem reg_setSound (b : Byte) (q : RegIx) : (s.setSound b).reg q = s.reg q := rfl
@[simp] theorem reg_advance (q : RegIx) : (s.advance).reg q = s.reg q := rfl
@[simp] theorem reg_skipIf (c : Bool) (q : RegIx) : (s.skipIf c).reg q = s.reg q := rfl
@[simp] theorem reg_jumpTo (w : Word) (q : RegIx) : (s.jumpTo w).reg q = s.reg q := rfl
@[simp] theorem reg_raise (c : FaultCode) (w : Word) (q : RegIx) : (s.raise c w).reg q = s.reg q := rfl
@[simp] theorem reg_unknownOpcode (w : Word) (q : RegIx) : (s.unknownOpcode w).reg q = s.reg q := rfl
@[simp] theorem reg_storeBytes (a : Nat) (us : List Byte) (q : RegIx) : (s.storeBytes a us).reg q = s.reg q := rfl
@[simp] theorem reg_setScreen (fb : Vector (BitVec 64) 32) (q : RegIx) : (s.setScreen fb).reg q = s.reg q := rfl
@[simp] theorem reg_clearOutputs (q : RegIx) : (s.clearOutputs).reg q = s.reg q := rfl
@[simp] theorem reg_tick (q : RegIx) : (s.tick).reg q = s.reg q := rfl
@[simp] theorem reg_nextDraw (q : RegIx) : (s.nextDraw).reg q = s.reg q := rfl

/-- The loaded registers are the first `n`; the others are untouched (R195). -/
theorem getElem_readRegs (m : Memory) (a n : Nat) (v : Vector Byte 16) (k : Nat) (hk : k < 16) :
    (readRegs m a n v)[k] = if k < n then Memory.read m (a + k) else v[k] := by
  induction n with
  | zero => simp [readRegs]
  | succ n ih =>
    simp only [readRegs, Vector.getElem_setIfInBounds, ih]
    by_cases h : n = k
    · simp [h]
    · rw [if_neg h]
      by_cases h' : k < n
      · rw [if_pos h', if_pos (by omega)]
      · rw [if_neg h', if_neg (by omega)]

theorem reg_loadFrom (a n : Nat) (q : RegIx) :
    (s.loadFrom a n).reg q = if q.val < n then s.readByte (a + q.val) else s.reg q :=
  getElem_readRegs s.mem a n s.v q.val q.isLt

/-- Two states with equal registers one by one hold the same register file. -/
theorem v_eq_of_reg {s t : State} (h : ∀ q, t.reg q = s.reg q) : t.v = s.v := by
  apply Vector.ext
  intro k hk
  exact h ⟨k, hk⟩

/-! ### Memory -/

@[simp] theorem readByte_setIndex (w : Word) (p : Nat) : (s.setIndex w).readByte p = s.readByte p := rfl
@[simp] theorem readByte_setDelay (b : Byte) (p : Nat) : (s.setDelay b).readByte p = s.readByte p := rfl
@[simp] theorem readByte_setSound (b : Byte) (p : Nat) : (s.setSound b).readByte p = s.readByte p := rfl
@[simp] theorem readByte_advance (p : Nat) : (s.advance).readByte p = s.readByte p := rfl
@[simp] theorem readByte_skipIf (c : Bool) (p : Nat) : (s.skipIf c).readByte p = s.readByte p := rfl
@[simp] theorem readByte_jumpTo (w : Word) (p : Nat) : (s.jumpTo w).readByte p = s.readByte p := rfl
@[simp] theorem readByte_raise (c : FaultCode) (w : Word) (p : Nat) : (s.raise c w).readByte p = s.readByte p := rfl
@[simp] theorem readByte_unknownOpcode (w : Word) (p : Nat) : (s.unknownOpcode w).readByte p = s.readByte p := rfl
@[simp] theorem readByte_setScreen (fb : Vector (BitVec 64) 32) (p : Nat) : (s.setScreen fb).readByte p = s.readByte p := rfl
@[simp] theorem readByte_clearOutputs (p : Nat) : (s.clearOutputs).readByte p = s.readByte p := rfl
@[simp] theorem readByte_tick (p : Nat) : (s.tick).readByte p = s.readByte p := rfl
@[simp] theorem readByte_nextDraw (p : Nat) : (s.nextDraw).readByte p = s.readByte p := rfl
@[simp] theorem readByte_setReg (r : RegIx) (b : Byte) (p : Nat) : (s.setReg r b).readByte p = s.readByte p := rfl
@[simp] theorem readByte_setRegFlag (x : RegIx) (b f : Byte) (p : Nat) : (s.setRegFlag x b f).readByte p = s.readByte p := rfl
@[simp] theorem readByte_loadFrom (a n : Nat) (p : Nat) : (s.loadFrom a n).readByte p = s.readByte p := rfl

theorem readByte_storeBytes (a : Nat) (us : List Byte) (b : Nat) :
    (s.storeBytes a us).readByte b = if a ≤ b ∧ b < a + us.length then us.getD (b - a) 0 else s.readByte b :=
  read_writeList s.mem a us b

theorem length_firstRegs {n : Nat} (h : n ≤ 16) : (s.firstRegs n).length = n := by
  simp [State.firstRegs, h]

theorem getD_firstRegs {n : Nat} (q : RegIx) (h : q.val < n) : (s.firstRegs n).getD q.val 0 = s.reg q := by
  simp [State.firstRegs, State.reg, List.getD_eq_getElem?_getD, h]

/-! ### Checks before an access -/

theorem lowestOob_toNat : s.lowestOob.toNat = max s.i.toNat 0x1000 := by
  unfold State.lowestOob
  by_cases h : s.i.toNat < Config.memSize
  · rw [if_pos h]
    exact (Nat.max_eq_right (Nat.le_of_lt h)).symm
  · rw [if_neg h]
    exact (Nat.max_eq_left (Nat.not_lt.1 h)).symm

/-- A range access either fits and goes on, or raises `MEM_OOB` and nothing else (R63). -/
theorem withRange_spec (n : Nat) (body : State) :
    ((n = 0 ∨ s.i.toNat + n ≤ 0x1000) ∧ s.withRange n body = body) ∨
    (0 < n ∧ 0x1000 < s.i.toNat + n ∧ s.withRange n body = s.raise .memOob s.lowestOob) := by
  by_cases h : 0 < n ∧ Config.memSize < s.dataAddr n
  · exact Or.inr ⟨h.1, h.2, if_pos h⟩
  · refine Or.inl ⟨?_, if_neg h⟩
    simp only [Config.memSize, State.dataAddr] at h
    omega

theorem withRange_of_fits {n : Nat} {body : State} (h : n = 0 ∨ s.i.toNat + n ≤ 0x1000) : s.withRange n body = body := by
  rcases withRange_spec s n body with h' | h'
  · exact h'.2
  · omega

theorem withRange_of_oob {n : Nat} {body : State} (h0 : 0 < n) (h : 0x1000 < s.i.toNat + n) :
    s.withRange n body = s.raise .memOob s.lowestOob := by
  rcases withRange_spec s n body with h' | h'
  · omega
  · exact h'.2.2

/-- A key test either has a key code 0..15 and goes on, or raises `KEY_OOB` (R236). -/
theorem withKey_spec (key : Byte) (body : State) :
    (key.toNat ≤ 15 ∧ s.withKey key body = body) ∨
    (15 < key.toNat ∧ s.withKey key body = s.raise .keyOob (zext16 key)) := by
  unfold State.withKey
  split
  · exact Or.inr ⟨‹_›, rfl⟩
  · exact Or.inl ⟨by omega, rfl⟩

/-! ### Call stack -/

/-- A call either has room and pushes `pc`, or overflows (R143). -/
theorem callTo_spec (w : Word) :
    (∃ h : s.sp.val < 16, s.callTo w =
      { s with stack := s.stack.set s.sp.val s.pc, sp := ⟨s.sp.val + 1, by omega⟩, pc := w }) ∨
    (s.sp.val = 16 ∧ s.callTo w = s.raise .stackOverflow s.pc) := by
  unfold State.callTo
  split
  · exact Or.inl ⟨‹_›, rfl⟩
  · exact Or.inr ⟨by omega, rfl⟩

/-- A return either pops an entry, or underflows (R141). -/
theorem returnFromCall_spec :
    (∃ h : 0 < s.sp.val, s.returnFromCall =
      { s with sp := ⟨s.sp.val - 1, by omega⟩, pc := s.stack[s.sp.val - 1]'(by omega) + 2 }) ∨
    (s.sp.val = 0 ∧ s.returnFromCall = s.raise .stackUnderflow s.pc) := by
  unfold State.returnFromCall
  split
  · exact Or.inl ⟨‹_›, rfl⟩
  · exact Or.inr ⟨by omega, rfl⟩

/-! ### Keys -/

/-- No key is found exactly when the latch is all false (R238). -/
theorem lowestKey_eq_none : s.lowestKey = none ↔ s.keys = 0 := by
  unfold State.lowestKey
  rw [List.find?_eq_none]
  constructor
  · intro h
    apply BitVec.eq_of_getLsbD_eq
    intro k hk
    have := h k (List.mem_range.2 hk)
    simpa [State.keySet] using this
  · intro h k _
    simp [State.keySet, h]

/-- A key that is found is set, and no key below it is (R238). -/
theorem lowestKey_eq_some {k : Nat} :
    s.lowestKey = some k ↔ k < 16 ∧ s.keys.getLsbD k = true ∧ ∀ j, j < k → s.keys.getLsbD j = false := by
  unfold State.lowestKey
  rw [List.find?_range_eq_some]
  simp only [List.mem_range, State.keySet, Bool.not_eq_true']
  tauto

/-! ### Tick and end of step -/

theorem countDown_toNat (t : Byte) : (countDown t).toNat = t.toNat - 1 := by
  unfold countDown
  split
  · subst_vars
    rfl
  · have : t.toNat ≠ 0 := fun h => ‹¬ t = 0› (BitVec.eq_of_toNat_eq h)
    have := t.isLt
    rw [BitVec.toNat_sub, show (1 : Byte).toNat = 1 from rfl]
    omega

theorem endStep_of_none (h : s.fault = none) : s.endStep = s.tick.nextDraw := by
  simp [State.endStep, h]

theorem endStep_of_some {r : FaultRecord} (h : s.fault = some r) : s.endStep = s := by
  simp [State.endStep, h]

/-! ### Fetch -/

theorem fetch_of_le (h : s.pc.toNat ≤ 0xFFE) :
    s.fetch = some (wordOfBytes (s.readByte s.pc.toNat) (s.readByte (s.pc.toNat + 1))) := if_pos h

theorem fetch_of_gt (h : 0xFFE < s.pc.toNat) : s.fetch = none := if_neg (Nat.not_le.2 h)

end Sys2Proof.Machine
end

