-- ==== Sys2Proof/Laws/Console.lean ====
section
/-! SUPPORT. The host's side: reset with a glyph set field by field, and what each host move can do. -/

namespace Sys2Proof.Machine

/-! ### Reset with a glyph set (R5, R37, R62): only memory depends on it -/

variable (rom : GlyphRom)

@[simp] theorem resetWith_v : (State.resetWith rom).v = Vector.replicate 16 0 := rfl
@[simp] theorem resetWith_i : (State.resetWith rom).i = 0 := rfl
@[simp] theorem resetWith_pc : (State.resetWith rom).pc = 0x200 := rfl
@[simp] theorem resetWith_stack : (State.resetWith rom).stack = Vector.replicate 16 0 := rfl
@[simp] theorem resetWith_sp : (State.resetWith rom).sp = 0 := rfl
@[simp] theorem resetWith_dt : (State.resetWith rom).dt = 0 := rfl
@[simp] theorem resetWith_st : (State.resetWith rom).st = 0 := rfl
@[simp] theorem resetWith_fb : (State.resetWith rom).fb = Vector.replicate 32 0 := rfl
@[simp] theorem resetWith_keys : (State.resetWith rom).keys = 0 := rfl
@[simp] theorem resetWith_fault : (State.resetWith rom).fault = none := rfl
@[simp] theorem resetWith_beep : (State.resetWith rom).beep = false := rfl
@[simp] theorem resetWith_unknown : (State.resetWith rom).unknown = none := rfl

/-- The glyph area holds the argument, every other byte is 0. -/
theorem readByte_resetWith (a : Nat) : (State.resetWith rom).readByte a = if h : a < 80 then rom[a] else 0 :=
  read_resetWith rom a

/-! ### What a move can do -/

/-- A move that has a meaning is one of these four, and none changes the glyph set (R5, R35). -/
theorem apply_cases {c d : Console} {m : HostMove} (h : c.apply m = some d) :
    (m = .reset ∧ d = ⟨c.core.hostReset c.rom, true, c.rom⟩) ∨
    (∃ a b, m = .load a b ∧ c.loadOpen = true ∧ 0x200 ≤ a.toNat ∧ d = ⟨c.core.storeBytes a.toNat [b], true, c.rom⟩) ∨
    (∃ k, m = .setKeys k ∧ d = ⟨{ c.core with keys := k }, c.loadOpen, c.rom⟩) ∨
    (∃ t, m = .step ∧ step c.core = .next t ∧ d = ⟨t, false, c.rom⟩) := by
  cases m with
  | reset => exact .inl ⟨rfl, by simpa [Console.apply] using h.symm⟩
  | load a b =>
    simp only [Console.apply, Console.loadByte] at h
    split at h
    · rename_i hg
      refine .inr (.inl ⟨a, b, rfl, hg.1, hg.2, ?_⟩)
      rw [← Option.some.inj h, hg.1]
    · cases h
  | setKeys k => exact .inr (.inr (.inl ⟨k, rfl, by simpa [Console.apply] using h.symm⟩))
  | step =>
    simp only [Console.apply, Console.stepCore] at h
    split at h
    · exact .inr (.inr (.inr ⟨_, rfl, ‹_›, (Option.some.inj h).symm⟩))
    · cases h
    · cases h

/-- A run of one more move is that move, then the rest. -/
theorem run_cons {c d : Console} {m : HostMove} {ms : List HostMove} :
    Console.run c (m :: ms) = some d ↔ ∃ b, c.apply m = some b ∧ Console.run b ms = some d := by
  simp [Console.run, Option.bind_eq_some_iff]

/-- An image that fits is stored from 0x200 on (R74). -/
theorem loadImage_of_fits (s : State) {image : List Byte} (h : image.length ≤ 3584) :
    s.loadImage image = some (s.storeBytes 0x200 image) := if_pos h

/-- A longer image is refused (R74). -/
theorem loadImage_of_long (s : State) {image : List Byte} (h : 3584 < image.length) : s.loadImage image = none :=
  if_neg (Nat.not_le.2 h)

end Sys2Proof.Machine
end

