-- ==== Sys2Proof/Laws/Display.lean ====
section
/-! SUPPORT. Cells of the framebuffer: what a toggle does to every cell, and screens equal cell by cell. -/

namespace Sys2Proof.Machine

variable (fb : Vector (BitVec 64) 32)

/-- A toggle flips the cell at its own wrapped coordinates and no other (R212). -/
theorem litAt_toggleAt (cx cy dx dy : Nat) :
    litAt (toggleAt fb cx cy) dx dy =
      (litAt fb dx dy ^^ (decide (dx % 64 = cx % 64) && decide (dy % 32 = cy % 32))) := by
  have hx : dx % 64 < 64 := Nat.mod_lt _ (by decide)
  by_cases hy : cy % 32 = dy % 32
  · simp only [litAt, toggleAt, hy, Vector.getElem_set_self, BitVec.getLsbD_xor, BitVec.getLsbD_twoPow]
    by_cases h : cx % 64 = dx % 64
    · simp [h, hx]
    · simp [h, eq_comm]
  · simp only [litAt, toggleAt]
    rw [Vector.getElem_set_ne _ _ hy]
    simp [Ne.symm hy]

@[simp] theorem litAt_blank (cx cy : Nat) : litAt (Vector.replicate 32 0#64) cx cy = false := by
  simp [litAt]

/-- Coordinates matter only modulo the screen's size (R210). -/
theorem litAt_mod (cx cy : Nat) : litAt fb (cx % 64) (cy % 32) = litAt fb cx cy := by
  simp [litAt]

/-- Two screens that agree on every cell are equal. -/
theorem screen_ext {fb fb' : Vector (BitVec 64) 32} (h : ∀ cx cy, cx < 64 → cy < 32 → litAt fb cx cy = litAt fb' cx cy) :
    fb = fb' := by
  apply Vector.ext
  intro y hy
  apply BitVec.eq_of_getLsbD_eq
  intro x hx
  have := h x y hx hy
  simpa [litAt, Nat.mod_eq_of_lt hx, Nat.mod_eq_of_lt hy] using this

/-- The 2048 cells by index are the 64 by 32 cells by coordinates (R31, R210). -/
theorem screen_ext_cell {s t : State} (h : ∀ c, c < 2048 → t.cell c = s.cell c) : t.fb = s.fb := by
  apply screen_ext
  intro x y hx hy
  have := h (64 * y + x) (by omega)
  rwa [State.cell, State.cell, show (64 * y + x) % 64 = x by omega, show (64 * y + x) / 64 = y by omega] at this

theorem cell_setReg (s : State) (r : RegIx) (b : Byte) (c : Nat) : (s.setReg r b).cell c = s.cell c := rfl

theorem plot_fb (c : Canvas) (cx cy : Nat) : (plot c cx cy).fb = toggleAt c.fb cx cy := rfl

theorem plot_hit (c : Canvas) (cx cy : Nat) : (plot c cx cy).hit = (c.hit || litAt c.fb cx cy) := rfl

/-- One more sprite column: its bit is plotted, or nothing happens (R212). -/
theorem drawCols_succ (x0 y : Nat) (b : Byte) (col : Nat) (c : Canvas) :
    drawCols x0 y b (col + 1) c =
      if spriteBit b col then plot (drawCols x0 y b col c) (x0 + col) y else drawCols x0 y b col c := rfl

/-- One more sprite row (R212). -/
theorem drawRows_succ (m : Memory) (a x0 y0 row : Nat) (c : Canvas) :
    drawRows m a x0 y0 (row + 1) c =
      drawCols x0 (y0 + row) (Memory.read m (a + row)) 8 (drawRows m a x0 y0 row c) := rfl

/-! ### What a sprite row, and a sprite, leaves on the screen (R212) -/

/-- Some of the first `cols` columns of a row has its bit set and its target at column `dx`. -/
def rowHits (x0 : Nat) (b : Byte) (cols dx : Nat) : Prop := ∃ col, col < cols ∧ spriteBit b col = true ∧ (x0 + col) % 64 = dx

/-- One row toggles exactly the cells its set bits target, each once, for at most 64 columns. -/
theorem litAt_drawCols (x0 y : Nat) (b : Byte) {cols : Nat} (hc : cols ≤ 64) (c : Canvas) {dx dy : Nat} (hx : dx < 64)
    (hy : dy < 32) :
    (rowHits x0 b cols dx ∧ y % 32 = dy → litAt (drawCols x0 y b cols c).fb dx dy = !litAt c.fb dx dy) ∧
    (¬ (rowHits x0 b cols dx ∧ y % 32 = dy) → litAt (drawCols x0 y b cols c).fb dx dy = litAt c.fb dx dy) := by
  induction cols with
  | zero => exact ⟨fun h => by obtain ⟨⟨_, h, _⟩, _⟩ := h; omega, fun _ => rfl⟩
  | succ n ih =>
    obtain ⟨ih1, ih2⟩ := ih (by omega)
    have step_iff : rowHits x0 b (n + 1) dx ↔ rowHits x0 b n dx ∨ (spriteBit b n = true ∧ (x0 + n) % 64 = dx) := by
      constructor
      · rintro ⟨k, hk, h⟩
        rcases Nat.lt_succ_iff_lt_or_eq.1 hk with hk | rfl
        · exact .inl ⟨k, hk, h⟩
        · exact .inr h
      · rintro (⟨k, hk, h⟩ | h)
        · exact ⟨k, by omega, h⟩
        · exact ⟨n, by omega, h⟩
    have once : rowHits x0 b n dx → (x0 + n) % 64 ≠ dx := by
      rintro ⟨k, hk, -, h⟩
      omega
    rw [drawCols_succ]
    by_cases hb : spriteBit b n = true
    · rw [if_pos hb, plot_fb, litAt_toggleAt, Nat.mod_eq_of_lt hx, Nat.mod_eq_of_lt hy]
      by_cases hr : rowHits x0 b n dx ∧ y % 32 = dy
      · have := once hr.1
        rw [ih1 hr]
        simp [step_iff, hr.1, hr.2, Ne.symm this]
      · rw [ih2 hr]
        by_cases hn : (x0 + n) % 64 = dx ∧ y % 32 = dy
        · simp [step_iff, hb, hn.1, hn.2]
        · refine ⟨fun h => ?_, fun _ => ?_⟩
          · rw [step_iff] at h
            tauto
          · have : (decide (dx = (x0 + n) % 64) && decide (dy = y % 32)) = false := by
              simpa using fun h1 h2 => hn ⟨h1.symm, Eq.symm h2⟩
            simp [this]
    · rw [if_neg hb]
      have : rowHits x0 b (n + 1) dx ↔ rowHits x0 b n dx := by simp [step_iff, hb]
      rw [this]
      exact ⟨ih1, ih2⟩

/-- A row hits exactly when a target of one of its set bits was lit before the row, for at most 64 columns. -/
theorem hit_drawCols (x0 y : Nat) (b : Byte) {cols : Nat} (hc : cols ≤ 64) (c : Canvas) :
    (drawCols x0 y b cols c).hit = true ↔
      c.hit = true ∨ ∃ col, col < cols ∧ spriteBit b col = true ∧ litAt c.fb (x0 + col) y = true := by
  induction cols with
  | zero => simp [drawCols]
  | succ n ih =>
    have ih := ih (by omega)
    have fresh : litAt (drawCols x0 y b n c).fb (x0 + n) y = litAt c.fb (x0 + n) y := by
      rw [← litAt_mod, ← litAt_mod c.fb]
      refine (litAt_drawCols x0 y b (by omega) c (Nat.mod_lt _ (by decide)) (Nat.mod_lt _ (by decide))).2 ?_
      rintro ⟨⟨k, hk, -, h⟩, -⟩
      omega
    rw [drawCols_succ]
    split
    · rename_i hb
      rw [plot_hit, Bool.or_eq_true, ih, fresh]
      constructor
      · rintro ((h | ⟨k, hk, h⟩) | h)
        · exact .inl h
        · exact .inr ⟨k, by omega, h⟩
        · exact .inr ⟨n, by omega, hb, h⟩
      · rintro (h | ⟨k, hk, h⟩)
        · exact .inl (.inl h)
        · rcases Nat.lt_succ_iff_lt_or_eq.1 hk with hk | rfl
          · exact .inl (.inr ⟨k, hk, h⟩)
          · exact .inr h.2
    · rename_i hb
      rw [ih]
      constructor
      · rintro (h | ⟨k, hk, h⟩)
        · exact .inl h
        · exact .inr ⟨k, by omega, h⟩
      · rintro (h | ⟨k, hk, h⟩)
        · exact .inl h
        · rcases Nat.lt_succ_iff_lt_or_eq.1 hk with hk | rfl
          · exact .inr ⟨k, hk, h⟩
          · exact absurd h.1 hb

/-- Some of the first `rows` rows of the sprite at `a` has a set bit whose target is the cell at `dx`, `dy`. -/
def spriteHits (m : Memory) (a x0 y0 rows dx dy : Nat) : Prop :=
  ∃ row, row < rows ∧ rowHits x0 (Memory.read m (a + row)) 8 dx ∧ (y0 + row) % 32 = dy

theorem spriteHits_succ (m : Memory) (a x0 y0 n dx dy : Nat) :
    spriteHits m a x0 y0 (n + 1) dx dy ↔ spriteHits m a x0 y0 n dx dy ∨
      (rowHits x0 (Memory.read m (a + n)) 8 dx ∧ (y0 + n) % 32 = dy) := by
  constructor
  · rintro ⟨k, hk, h⟩
    rcases Nat.lt_succ_iff_lt_or_eq.1 hk with hk | rfl
    · exact .inl ⟨k, hk, h⟩
    · exact .inr h
  · rintro (⟨k, hk, h⟩ | h)
    · exact ⟨k, by omega, h⟩
    · exact ⟨n, by omega, h⟩

/-- A sprite of at most 32 rows toggles exactly the cells its set bits target. -/
theorem litAt_drawRows (m : Memory) (a x0 y0 : Nat) {rows : Nat} (hr : rows ≤ 32) (c : Canvas) {dx dy : Nat} (hx : dx < 64)
    (hy : dy < 32) :
    (spriteHits m a x0 y0 rows dx dy → litAt (drawRows m a x0 y0 rows c).fb dx dy = !litAt c.fb dx dy) ∧
    (¬ spriteHits m a x0 y0 rows dx dy → litAt (drawRows m a x0 y0 rows c).fb dx dy = litAt c.fb dx dy) := by
  induction rows with
  | zero => exact ⟨fun h => by obtain ⟨_, h, _⟩ := h; omega, fun _ => rfl⟩
  | succ n ih =>
    obtain ⟨ih1, ih2⟩ := ih (by omega)
    obtain ⟨r1, r2⟩ := litAt_drawCols x0 (y0 + n) (Memory.read m (a + n)) (show 8 ≤ 64 by decide)
      (drawRows m a x0 y0 n c) hx hy
    have once : spriteHits m a x0 y0 n dx dy → (y0 + n) % 32 ≠ dy := by
      rintro ⟨k, hk, -, h⟩
      omega
    rw [spriteHits_succ, drawRows_succ]
    by_cases hs : spriteHits m a x0 y0 n dx dy
    · refine ⟨fun _ => ?_, fun h => absurd (.inl hs) h⟩
      rw [r2 fun h => once hs h.2, ih1 hs]
    · refine ⟨fun h => ?_, fun h => ?_⟩
      · rw [r1 (h.resolve_left hs), ih2 hs]
      · rw [r2 fun h' => h (.inr h'), ih2 hs]

/-- A sprite of at most 32 rows hits exactly when a target of one of its set bits was lit before it was drawn (R214 (c)). -/
theorem hit_drawRows (m : Memory) (a x0 y0 : Nat) {rows : Nat} (hr : rows ≤ 32) (c : Canvas) :
    (drawRows m a x0 y0 rows c).hit = true ↔ c.hit = true ∨ ∃ row, row < rows ∧ ∃ col, col < 8 ∧
      spriteBit (Memory.read m (a + row)) col = true ∧ litAt c.fb (x0 + col) (y0 + row) = true := by
  induction rows with
  | zero => simp [drawRows]
  | succ n ih =>
    have ih := ih (by omega)
    have fresh : ∀ col, litAt (drawRows m a x0 y0 n c).fb (x0 + col) (y0 + n) = litAt c.fb (x0 + col) (y0 + n) := by
      intro col
      rw [← litAt_mod, ← litAt_mod c.fb]
      refine (litAt_drawRows m a x0 y0 (by omega) c (Nat.mod_lt _ (by decide)) (Nat.mod_lt _ (by decide))).2 ?_
      rintro ⟨k, hk, -, h⟩
      omega
    rw [drawRows_succ, hit_drawCols _ _ _ (by decide), ih]
    simp only [fresh]
    constructor
    · rintro ((h | ⟨k, hk, h⟩) | h)
      · exact .inl h
      · exact .inr ⟨k, by omega, h⟩
      · exact .inr ⟨n, by omega, h⟩
    · rintro (h | ⟨k, hk, h⟩)
      · exact .inl (.inl h)
      · rcases Nat.lt_succ_iff_lt_or_eq.1 hk with hk | rfl
        · exact .inl (.inr ⟨k, hk, h⟩)
        · exact .inr h

end Sys2Proof.Machine
end

