-- ==== Sys2Proof/Laws/Step.lean ====
section
/-! SUPPORT. The four ways a step goes (R130), each as one equation. -/

namespace Sys2Proof.Machine

variable {s : State}

theorem step_of_halted {r : FaultRecord} (h : s.fault = some r) : step s = .next s.clearOutputs := by
  simp [step, h]

theorem step_of_running (h : s.fault = none) : step s = runStep s.clearOutputs := by
  simp [step, h]

theorem step_of_unfetchable (h : s.fault = none) (hp : 0xFFE < s.pc.toNat) :
    step s = .next (s.clearOutputs.raise .fetchOob s.pc) := by
  rw [step_of_running h, runStep, fetch_of_gt s.clearOutputs hp]
  rfl

theorem step_of_fetched (h : s.fault = none) (hp : s.pc.toNat ≤ 0xFFE) :
    step s = runWord (wordOfBytes (s.readByte s.pc.toNat) (s.readByte (s.pc.toNat + 1))) s.clearOutputs := by
  rw [step_of_running h, runStep, fetch_of_le s.clearOutputs hp]
  rfl

theorem runWord_of_instr {w : Word} {i : Instr} (h : decode w = .instr i) : runWord w s = endResult (exec i s) := by
  simp [runWord, h]

theorem runWord_of_reject {w : Word} {r : Reject} (h : decode w = .reject r) :
    runWord w s = .next (s.unknownOpcode w).endStep := by
  simp [runWord, h, endResult]

/-- The word placed by `withFetchWord` is the one the next step fetches. -/
theorem fetch_withFetchWord (s : State) (nbits w : Nat) :
    (s.withFetchWord nbits w).fetch = some (tableWord nbits w) := by
  have hp : s.fetchAddr.toNat ≤ 0xFFE := by
    unfold State.fetchAddr
    split
    · assumption
    · decide
  rw [fetch_of_le _ hp]
  simp only [State.withFetchWord, State.readByte, read_writeList]
  simp

end Sys2Proof.Machine
end

