-- ==== Sys2Proof/Tests/Slice0.lean ====
section
/-! SUPPORT. Decode words written out from R95, single steps of 95_test_vectors.md, and witnesses of the statements'
hypotheses. -/

namespace Sys2Proof.Tests

open Sys2Proof Sys2Proof.Machine

/-! ### Helpers -/

/-- Registers by number, the others 0. -/
def regs (l : List (RegIx × Byte)) : Vector Byte 16 := l.foldl (fun v p => v.set p.1.val p.2) (Vector.replicate 16 0)

/-- Rows of the screen by number, the others unlit. -/
def rows (l : List (Fin 32 × BitVec 64)) : Vector (BitVec 64) 32 :=
  l.foldl (fun f p => f.set p.1.val p.2) (Vector.replicate 32 0)

/-- `s` with `w` as its next instruction. -/
def holding (w : Nat) (s : State) : State := s.withFetchWord 16 w

/-- The step of `s` gives a next state with property `p`. -/
def steppedTo (s : State) (p : State → Bool) : Bool :=
  match step s with
  | .next t => p t
  | .fault _ => false
  | .refused _ => false

/-- One step of `w` from `s` gives a next state with property `p`. -/
def ran (w : Nat) (s : State) (p : State → Bool) : Bool := steppedTo (holding w s) p

theorem next_of_steppedTo {s : State} {p : State → Bool} (h : steppedTo s p = true) :
    ∃ t, step s = .next t ∧ p t = true := by
  unfold steppedTo at h
  split at h
  · exact ⟨_, ‹_›, h⟩
  · cases h
  · cases h

/-- The fault record of a code and an information word. -/
def rec? (code : FaultCode) (info : Word) : Option FaultRecord := some ⟨code, info⟩

/-! ### Decoding: one word of each row, from its pattern in R95 (general knowledge G1, log 11) -/

theorem test_decode_sys : decode 0x0123 = .instr (.sys 0x123) := by decide
theorem test_decode_cls : decode 0x00E0 = .instr (.cls 0) := by decide
theorem test_decode_ret : decode 0x00EE = .instr (.ret 0) := by decide
theorem test_decode_jp : decode 0x1234 = .instr (.jp 0x234) := by decide
theorem test_decode_call : decode 0x2300 = .instr (.call 0x300) := by decide
theorem test_decode_seByte : decode 0x3A05 = .instr (.seByte 10 0x05) := by decide
theorem test_decode_sneByte : decode 0x4A05 = .instr (.sneByte 10 0x05) := by decide
theorem test_decode_seReg : decode 0x5120 = .instr (.seReg 1 2 0) := by decide
theorem test_decode_ldByte : decode 0x63FF = .instr (.ldByte 3 0xFF) := by decide
theorem test_decode_addByte : decode 0x7105 = .instr (.addByte 1 0x05) := by decide
theorem test_decode_ldReg : decode 0x8120 = .instr (.ldReg 1 2) := by decide
theorem test_decode_orReg : decode 0x8121 = .instr (.orReg 1 2) := by decide
theorem test_decode_andReg : decode 0x8122 = .instr (.andReg 1 2) := by decide
theorem test_decode_xorReg : decode 0x8123 = .instr (.xorReg 1 2) := by decide
theorem test_decode_addReg : decode 0x8124 = .instr (.addReg 1 2) := by decide
theorem test_decode_subReg : decode 0x8125 = .instr (.subReg 1 2) := by decide
theorem test_decode_shr : decode 0x8106 = .instr (.shr 1 0) := by decide
theorem test_decode_subn : decode 0x8127 = .instr (.subn 1 2) := by decide
theorem test_decode_shl : decode 0x810E = .instr (.shl 1 0) := by decide
theorem test_decode_sneReg : decode 0x9120 = .instr (.sneReg 1 2 0) := by decide
theorem test_decode_ldI : decode 0xABCD = .instr (.ldI 0xBCD) := by decide
theorem test_decode_jpV0 : decode 0xB300 = .instr (.jpV0 0x300) := by decide
theorem test_decode_rnd : decode 0xC10F = .instr (.rnd 1 0x0F) := by decide
theorem test_decode_drw : decode 0xD125 = .instr (.drw 1 2 5) := by decide
theorem test_decode_skp : decode 0xE19E = .instr (.skp 1) := by decide
theorem test_decode_sknp : decode 0xE1A1 = .instr (.sknp 1) := by decide
theorem test_decode_ldVxDT : decode 0xF107 = .instr (.ldVxDT 1) := by decide
theorem test_decode_ldVxK : decode 0xF30A = .instr (.ldVxK 3) := by decide
theorem test_decode_ldDTVx : decode 0xF115 = .instr (.ldDTVx 1) := by decide
theorem test_decode_ldSTVx : decode 0xF118 = .instr (.ldSTVx 1) := by decide
theorem test_decode_addIVx : decode 0xF11E = .instr (.addIVx 1) := by decide
theorem test_decode_ldFVx : decode 0xF129 = .instr (.ldFVx 1) := by decide
theorem test_decode_ldBVx : decode 0xF133 = .instr (.ldBVx 1) := by decide
theorem test_decode_storeRegs : decode 0xF255 = .instr (.storeRegs 2) := by decide
theorem test_decode_loadRegs : decode 0xF165 = .instr (.loadRegs 1) := by decide

/-! B6 of the vectors: ignored bits, unknown words, byte order. -/

theorem test_decode_cls_high_nibble : decode 0x01E0 = .instr (.cls 1) := by decide
theorem test_decode_ret_high_nibble : decode 0x0FEE = .instr (.ret 0xF) := by decide
theorem test_decode_sys_E1 : decode 0x00E1 = .instr (.sys 0x0E1) := by decide
theorem test_decode_seReg_low_nibble : decode 0x5121 = .instr (.seReg 1 2 1) := by decide
theorem test_decode_sneReg_low_nibble : decode 0x912F = .instr (.sneReg 1 2 0xF) := by decide
theorem test_decode_unknown_8129 : decode 0x8129 = .reject (.unknown8 0x8129) := by decide
theorem test_decode_unknown_812F : decode 0x812F = .reject (.unknown8 0x812F) := by decide
theorem test_decode_unknown_E100 : decode 0xE100 = .reject (.unknownE 0xE100) := by decide
theorem test_decode_unknown_F100 : decode 0xF100 = .reject (.unknownF 0xF100) := by decide
theorem test_decode_unknown_F075 : decode 0xF075 = .reject (.unknownF 0xF075) := by decide
theorem test_decode_big_endian :
    decodeBytes [0x12, 0x34] = (.instr (.jp 0x234), []) ∧ decodeBytes [0x34, 0x12] = (.instr (.seByte 4 0x12), []) := by
  decide
theorem test_decode_truncated : decodeBytes [0x12] = (.reject (.truncated 1), []) := by decide
theorem test_decodeTableWord : decodeTableWord 16 0xD125 = some (.drw 1 2 5) ∧ decodeTableWord 16 0x8128 = none := by
  decide

/-! ### WellFormed: the one check, with ill-formed terms it refuses -/

theorem test_wf_refuses_sys_as_cls : (Instr.sys 0x0E0).wf = false := by decide
theorem test_wf_refuses_sys_as_ret : (Instr.sys 0xFEE).wf = false := by decide
theorem test_wf_accepts_sys : (Instr.sys 0x0E1).wf = true := by decide
theorem test_canonical_refuses_ignored_bits :
    (Instr.cls 1).canonical = false ∧ (Instr.seReg 1 2 7).canonical = false ∧ (Instr.shr 1 2).canonical = false := by
  decide

/-! ### Single steps, from sections A, B and C of 95_test_vectors.md (the vector is named) -/

/-- B1.1. -/
theorem test_sys :
    ran 0x0123 State.reset
      (fun t => t.pc == 0x202 && t.unknown == some ⟨0x0123, 0x200⟩) = true := by
  decide

/-- B1.3. -/
theorem test_ret_pops :
    ran 0x00EE { State.reset with sp := 1, stack := State.reset.stack.set 0 0x204 }
      (fun t => t.pc == 0x206 && t.sp == 0 && t.stack[0] == 0x204) = true := by
  decide

/-- B1.4. -/
theorem test_ret_underflow :
    ran 0x00EE { State.reset with dt := 5 }
      (fun t => t.fault == rec? .stackUnderflow 0x200 && t.pc == 0x200 && t.dt == 5) = true := by
  decide

/-- B1.7. -/
theorem test_jp :
    ran 0x1200 { State.reset with dt := 3 }
      (fun t => t.pc == 0x200 && t.dt == 2) = true := by
  decide

/-- A1(e). -/
theorem test_jp_last :
    ran 0x1FFF State.reset
      (fun t => t.pc == 0xFFF && t.fault == none) = true := by
  decide

/-- B1.9. -/
theorem test_call_last_entry :
    ran 0x2300 { State.reset with sp := 15 }
      (fun t => t.stack[15] == 0x200 && t.sp == 16 && t.pc == 0x300) = true := by
  decide

/-- B1.10. -/
theorem test_call_overflow :
    ran 0x2300 { State.reset with sp := 16 }
      (fun t => t.fault == rec? .stackOverflow 0x200 && t.sp == 16 && t.pc == 0x200) = true := by
  decide

/-- B1.11. -/
theorem test_seByte_equal :
    ran 0x3A05 { State.reset with v := regs [(10, 5)] }
      (fun t => t.pc == 0x204) = true := by
  decide

/-- B1.12. -/
theorem test_seByte_differ :
    ran 0x3A05 { State.reset with v := regs [(10, 6)] }
      (fun t => t.pc == 0x202) = true := by
  decide

/-- B1.13. -/
theorem test_sneByte_equal :
    ran 0x4A05 { State.reset with v := regs [(10, 5)] }
      (fun t => t.pc == 0x202) = true := by
  decide

/-- B1.14. -/
theorem test_sneByte_differ :
    ran 0x4A05 { State.reset with v := regs [(10, 6)] }
      (fun t => t.pc == 0x204) = true := by
  decide

/-- B1.17. -/
theorem test_seReg_low_nibble :
    ran 0x5127 { State.reset with v := regs [(1, 7), (2, 7)] }
      (fun t => t.pc == 0x204 && t.unknown == none) = true := by
  decide

/-- B1.16. -/
theorem test_seReg_differ :
    ran 0x5120 { State.reset with v := regs [(1, 7), (2, 8)] }
      (fun t => t.pc == 0x202) = true := by
  decide

/-- B1.18. -/
theorem test_sneReg_differ :
    ran 0x9120 { State.reset with v := regs [(1, 7), (2, 8)] }
      (fun t => t.pc == 0x204) = true := by
  decide

/-- B1.19. -/
theorem test_sneReg_same :
    ran 0x9110 { State.reset with v := regs [(1, 7)] }
      (fun t => t.pc == 0x202) = true := by
  decide

/-- B1.20. -/
theorem test_jpV0 :
    ran 0xB300 { State.reset with v := regs [(0, 0x10)] }
      (fun t => t.pc == 0x310) = true := by
  decide

/-- B1.21. -/
theorem test_jpV0_top :
    ran 0xBFFF { State.reset with v := regs [(0, 0xFF)] }
      (fun t => t.pc == 0x10FE && t.fault == none) = true := by
  decide

/-- B2.1. -/
theorem test_ldByte :
    ran 0x63FF State.reset
      (fun t => t.reg 3 == 0xFF && t.pc == 0x202) = true := by
  decide

/-- B2.2. -/
theorem test_addByte_no_carry :
    ran 0x7105 { State.reset with v := regs [(1, 0xFE), (15, 7)] }
      (fun t => t.reg 1 == 3 && t.reg 15 == 7) = true := by
  decide

/-- B2.3. -/
theorem test_addByte_flag_register :
    ran 0x7FFF { State.reset with v := regs [(15, 1)] }
      (fun t => t.reg 15 == 0) = true := by
  decide

/-- B2.4. -/
theorem test_ldReg :
    ran 0x8120 { State.reset with v := regs [(2, 9)] }
      (fun t => t.reg 1 == 9 && t.reg 2 == 9) = true := by
  decide

/-- B2.5. -/
theorem test_orReg :
    ran 0x8121 { State.reset with v := regs [(1, 0xF0), (2, 0x0F), (15, 7)] }
      (fun t => t.reg 1 == 0xFF && t.reg 15 == 7) = true := by
  decide

/-- B2.6. -/
theorem test_andReg :
    ran 0x8122 { State.reset with v := regs [(1, 0xF3), (2, 0x3F)] }
      (fun t => t.reg 1 == 0x33) = true := by
  decide

/-- B2.7. -/
theorem test_xorReg :
    ran 0x8123 { State.reset with v := regs [(1, 0xFF), (2, 0x0F)] }
      (fun t => t.reg 1 == 0xF0) = true := by
  decide

/-- B2.8. -/
theorem test_addReg_255 :
    ran 0x8124 { State.reset with v := regs [(1, 0xFF), (2, 0)] }
      (fun t => t.reg 1 == 0xFF && t.reg 15 == 0) = true := by
  decide

/-- B2.15. -/
theorem test_addReg_flag_destination :
    ran 0x8F14 { State.reset with v := regs [(15, 200), (1, 100)] }
      (fun t => t.reg 15 == 1 && t.reg 1 == 100) = true := by
  decide

/-- B2.9. -/
theorem test_subReg_equal :
    ran 0x8125 { State.reset with v := regs [(1, 7), (2, 7), (15, 1)] }
      (fun t => t.reg 1 == 0 && t.reg 15 == 0) = true := by
  decide

/-- A6. -/
theorem test_subReg_wraps :
    ran 0x8125 { State.reset with v := regs [(1, 3), (2, 5)] }
      (fun t => t.reg 1 == 254 && t.reg 15 == 0) = true := by
  decide

/-- B2.10c. -/
theorem test_shr_ignores_y :
    ran 0x8126 { State.reset with v := regs [(1, 5), (2, 0xF0)] }
      (fun t => t.reg 1 == 2 && t.reg 15 == 1 && t.reg 2 == 0xF0) = true := by
  decide

/-- B2.24. -/
theorem test_shr_flag_register :
    ran 0x8F06 { State.reset with v := regs [(15, 2)] }
      (fun t => t.reg 15 == 0) = true := by
  decide

/-- B2.11. -/
theorem test_subn :
    ran 0x8127 { State.reset with v := regs [(1, 3), (2, 5)] }
      (fun t => t.reg 1 == 2 && t.reg 15 == 1) = true := by
  decide

/-- B2.22. -/
theorem test_subn_flag_operand :
    ran 0x81F7 { State.reset with v := regs [(1, 1), (15, 0x80)] }
      (fun t => t.reg 1 == 0x7F && t.reg 15 == 1) = true := by
  decide

/-- B2.12. -/
theorem test_shl_literal_flag :
    ran 0x810E { State.reset with v := regs [(1, 0x81)] }
      (fun t => t.reg 1 == 2 && t.reg 15 == 0x80) = true := by
  decide

/-- B2.26. -/
theorem test_shl_flag_register :
    ran 0x8F0E { State.reset with v := regs [(15, 0x40)] }
      (fun t => t.reg 15 == 0) = true := by
  decide

/-- B3.1. -/
theorem test_ldI :
    ran 0xA123 State.reset
      (fun t => t.i == 0x123 && t.pc == 0x202) = true := by
  decide

/-- B3.2. -/
theorem test_addIVx_no_flag :
    ran 0xF11E { State.reset with i := 0x0FFF, v := regs [(1, 1), (15, 7)] }
      (fun t => t.i == 0x1000 && t.reg 15 == 7 && t.fault == none) = true := by
  decide

/-- B3.3. -/
theorem test_addIVx_wraps :
    ran 0xF11E { State.reset with i := 0xFFFF, v := regs [(1, 2)] }
      (fun t => t.i == 1) = true := by
  decide

/-- B3.4. -/
theorem test_ldFVx :
    ran 0xF129 { State.reset with v := regs [(1, 10)] }
      (fun t => t.i == 50) = true := by
  decide

/-- B3.5. -/
theorem test_ldFVx_no_mask :
    ran 0xF129 { State.reset with v := regs [(1, 0xFF)] }
      (fun t => t.i == 1275) = true := by
  decide

/-- B3.7. -/
theorem test_ldBVx_top :
    ran 0xF133 { State.reset with i := 0xFFD, v := regs [(1, 123)] }
      (fun t => t.readByte 0xFFD == 1 && t.readByte 0xFFE == 2 && t.readByte 0xFFF == 3 && t.i == 0xFFD) = true := by
  decide

/-- B3.8. -/
theorem test_ldBVx_oob :
    ran 0xF133 { State.reset with i := 0xFFE, v := regs [(1, 123)] }
      (fun t => t.fault == rec? .memOob 0x1000 && t.readByte 0xFFE == 0 && t.pc == 0x200) = true := by
  decide

/-- B3.12. -/
theorem test_storeRegs_inclusive :
    ran 0xF255 { State.reset with i := 0x300, v := regs [(0, 1), (1, 2), (2, 3), (3, 4)] }
      (fun t => t.readByte 0x300 == 1 && t.readByte 0x302 == 3 && t.readByte 0x303 == 0 && t.i == 0x300) = true := by
  decide

/-- B3.11. -/
theorem test_storeRegs_oob :
    ran 0xF155 { State.reset with i := 0xFFF, v := regs [(0, 0xAB), (1, 0xCD)] }
      (fun t => t.fault == rec? .memOob 0x1000 && t.readByte 0xFFF == 0) = true := by
  decide

/-- B3.14. -/
theorem test_loadRegs_glyph :
    ran 0xF265 State.reset
      (fun t => t.reg 0 == 0xF0 && t.reg 1 == 0x90 && t.reg 2 == 0x90 && t.reg 3 == 0 && t.i == 0) = true := by
  decide

/-- B3.15. -/
theorem test_loadRegs_oob :
    ran 0xFF65 { State.reset with i := 0xFF1 }
      (fun t => t.fault == rec? .memOob 0x1000 && t.reg 0 == 0) = true := by
  decide

/-- B4.1. -/
theorem test_cls :
    ran 0x00E0 { State.reset with fb := rows [(0, 1), (1, 64), (31, 0x8000000000000000)], v := regs [(15, 1)] }
      (fun t => t.fb == rows [] && t.reg 15 == 1) = true := by
  decide

/-- B4.4. -/
theorem test_drw_wraps_in_row :
    ran 0xD011 { State.reset with i := 0x300, mem := Memory.write [] 0x300 0xFF, v := regs [(0, 60)] }
      (fun t => t.fb == rows [(0, 0xF00000000000000F)] && t.reg 15 == 0) = true := by
  decide

/-- B4.11. -/
theorem test_drw_vf_as_x :
    ran 0xDF11 { State.reset with i := 0x300, mem := Memory.write [] 0x300 0x80, v := regs [(15, 5)] }
      (fun t => t.cell 0 && !t.cell 5 && t.reg 15 == 0) = true := by
  decide

/-- B5.15. -/
theorem test_skp_key_15 :
    ran 0xE19E { State.reset with v := regs [(1, 15)], keys := 0x8000 }
      (fun t => t.pc == 0x204) = true := by
  decide

/-- B5.13. -/
theorem test_skp_oob :
    ran 0xE19E { State.reset with v := regs [(1, 16)] }
      (fun t => t.fault == rec? .keyOob 0x10 && t.pc == 0x200) = true := by
  decide

/-- B5.11. -/
theorem test_sknp_set :
    ran 0xE1A1 { State.reset with v := regs [(1, 4)], keys := 0x0010 }
      (fun t => t.pc == 0x202) = true := by
  decide

/-- B5.12. -/
theorem test_sknp_clear :
    ran 0xE1A1 { State.reset with v := regs [(1, 4)], keys := 0x0008 }
      (fun t => t.pc == 0x204) = true := by
  decide

/-- B5.1. -/
theorem test_ldVxDT_before_tick :
    ran 0xF107 { State.reset with dt := 9 }
      (fun t => t.reg 1 == 9 && t.dt == 8) = true := by
  decide

/-- B5.16. -/
theorem test_ldVxK_stall :
    ran 0xF30A { State.reset with dt := 2, v := regs [(3, 9)] }
      (fun t => t.pc == 0x200 && t.reg 3 == 9 && t.dt == 1) = true := by
  decide

/-- B5.17. -/
theorem test_ldVxK_lowest :
    ran 0xF30A { State.reset with keys := 0x1080 }
      (fun t => t.reg 3 == 7 && t.pc == 0x202) = true := by
  decide

/-- B5.2. -/
theorem test_ldDTVx_ticked :
    ran 0xF115 { State.reset with v := regs [(1, 5)] }
      (fun t => t.dt == 4) = true := by
  decide

/-- B5.6. -/
theorem test_ldSTVx_beeps :
    ran 0xF118 { State.reset with v := regs [(1, 1)] }
      (fun t => t.st == 0 && t.beep) = true := by
  decide

/-- B5.7. -/
theorem test_ldSTVx_cancels :
    ran 0xF118 { State.reset with st := 1 }
      (fun t => t.st == 0 && !t.beep) = true := by
  decide

/-- B2.14. -/
theorem test_unknown_8 :
    ran 0x8128 { State.reset with v := regs [(1, 3), (2, 4)] }
      (fun t => t.unknown == some ⟨0x8128, 0x200⟩ && t.pc == 0x202 && t.reg 1 == 3) = true := by
  decide

/-- B5.20. -/
theorem test_unknown_E_reads_no_register :
    ran 0xE19F { State.reset with v := regs [(1, 0xFF)] }
      (fun t => t.unknown == some ⟨0xE19F, 0x200⟩ && t.fault == none) = true := by
  decide

/-- B2.13: any random byte, masked. -/
theorem test_rnd : ∃ t, step (holding 0xC10F State.reset) = .next t ∧
    t.reg 1 = Config.rndByte 0 &&& 0x0F ∧ t.pc = 0x202 :=
  ⟨_, rfl, rfl, rfl⟩

/-- B2.13b. -/
theorem test_rnd_masked_by_zero :
    ∃ t, step (holding 0xC100 { State.reset with v := regs [(1, 9)] }) = .next t ∧ t.reg 1 = 0 :=
  ⟨_, rfl, by show Config.rndByte 0 &&& 0 = 0; simp⟩

/-- B1.23. -/
theorem test_fetch_oob : steppedTo { State.reset with pc := 0xFFF, dt := 5 }
    (fun t => t.fault == rec? .fetchOob 0xFFF && t.dt == 5 && t.pc == 0xFFF) = true := by decide

/-- B1.24. -/
theorem test_halted : steppedTo { State.reset with fault := rec? .stackUnderflow 0x200, dt := 5, beep := true }
    (fun t => t.outputs == ⟨false, none, some (4, 0x200)⟩ && t.dt == 5) = true := by decide

/-- R5, R62: another glyph set is what reset puts at 0x000, also over a store there. -/
theorem test_reset_with_other_glyphs :
    ((⟨{ State.reset with keys := 3, mem := Memory.write [] 1 0xBB, fault := rec? .keyOob 16 }, false,
        GlyphRom.default.set 0 0xAA⟩ : Console).apply .reset).map
      (fun d => (d.core.readByte 0, d.core.readByte 1, d.core.keys, d.loadOpen)) = some (0xAA, 0x90, 3, true) := by
  decide

/-- With no image loaded, reset memory is the defined walk of `SYS 0` (B1.2; U10 of 93_implementation_defined.md). -/
theorem test_reset_walk : steppedTo State.reset (fun t => t.unknown == some ⟨0, 0x200⟩ && t.pc == 0x202) = true := by decide

/-! ### Witnesses: states and operands that meet a statement's hypotheses, clause by clause, at the ends of their ranges -/

/-- A property reached by one step of one state. -/
theorem reaches {s : State} (p : State → Prop) [DecidablePred p] (h : steppedTo s (fun t => decide (p t)) = true) :
    ∃ t, step s = .next t ∧ p t := by
  obtain ⟨t, h₁, h₂⟩ := next_of_steppedTo h
  exact ⟨t, h₁, of_decide_eq_true h₂⟩

theorem fetches_of {s : State} {i : Instr} (h : s.fault = none ∧ s.pc.toNat ≤ 0xFFE ∧ decode (wordAt s) = .instr i) :
    Fetches s i := h

theorem witness_DecodeOfEncodeIsTheInstruction : (Instr.drw 15 15 15).wf = true ∧ (Instr.sys 0xFFF).wf = true := by decide

theorem witness_EncodeOfDecodeIsTheWord : decode 0x0FEE = .instr (.ret 15) := by decide

theorem witness_UnknownWordsAreExactlyTheTable :
    decode 0x800F = .reject (.unknown8 0x800F) ∧ decode 0xEF00 = .reject (.unknownE 0xEF00) ∧
    decode 0xF066 = .reject (.unknownF 0xF066) ∧ decode 0x0FFF = .instr (.sys 0xFFF) := by decide

/-- The last address a word can be fetched from; the instruction completes. -/
theorem witness_StepRunsTheDecodedInstruction_completes :
    ∃ s : State, s.fault = none ∧ s.pc.toNat ≤ 0xFFE ∧
      decode (wordOfBytes (s.readByte s.pc.toNat) (s.readByte (s.pc.toNat + 1))) = .instr (.ldDTVx 1) ∧
      ∃ t, exec (.ldDTVx 1) { s with beep := false, unknown := none } = .next t ∧ t.fault = none :=
  ⟨holding 0xF115 { State.reset with pc := 0xFFE }, rfl, by decide, by decide, _, rfl, rfl⟩

theorem witness_StepRunsTheDecodedInstruction_faults :
    ∃ s : State, s.fault = none ∧ s.pc.toNat ≤ 0xFFE ∧
      decode (wordOfBytes (s.readByte s.pc.toNat) (s.readByte (s.pc.toNat + 1))) = .instr (.ret 0) ∧
      ∃ t, exec (.ret 0) { s with beep := false, unknown := none } = .next t ∧ t.fault ≠ none :=
  ⟨holding 0x00EE State.reset, rfl, by decide, by decide, _, rfl, by decide⟩

theorem fetchesUnknown_of {s : State} {r : Reject}
    (h : s.fault = none ∧ s.pc.toNat ≤ 0xFFE ∧ decode (wordAt s) = .reject r) : FetchesUnknown s :=
  ⟨h.1, h.2.1, r, h.2.2⟩

theorem witness_UnknownWordIsReportedAndSteppedOver : FetchesUnknown (holding 0x8128 State.reset) :=
  fetchesUnknown_of (r := .unknown8 0x8128) (by decide)

theorem witness_FetchBeyondMemoryFaults :
    ∃ s : State, s.fault = none ∧ 0xFFE < s.pc.toNat := ⟨{ State.reset with pc := 0xFFF }, rfl, by decide⟩

theorem witness_HaltedCoreDoesNothing : ∃ (s : State) (r : FaultRecord), s.fault = some r :=
  ⟨{ State.reset with fault := rec? .keyOob 0x10 }, ⟨.keyOob, 0x10⟩, rfl⟩

/-- One state for each row of the fault table, beside its nearest neighbour for which none is due. -/
theorem witness_FaultsAreExactlyTheTable :
    faultDue { State.reset with pc := 0xFFF } = rec? .fetchOob 0xFFF ∧
    faultDue { State.reset with pc := 0xFFE } = none ∧
    faultDue (holding 0xF133 { State.reset with i := 0xFFE }) = rec? .memOob 0x1000 ∧
    faultDue (holding 0xF133 { State.reset with i := 0xFFD }) = none ∧
    faultDue (holding 0xFF55 { State.reset with i := 0xFF1 }) = rec? .memOob 0x1000 ∧
    faultDue (holding 0xF065 { State.reset with i := 0xFFFF }) = rec? .memOob 0xFFFF ∧
    faultDue (holding 0xD011 { State.reset with i := 0x1000 }) = rec? .memOob 0x1000 ∧
    faultDue (holding 0xD010 { State.reset with i := 0xFFFF }) = none ∧
    faultDue (holding 0x2300 { State.reset with sp := 16 }) = rec? .stackOverflow 0x200 ∧
    faultDue (holding 0x2300 { State.reset with sp := 15 }) = none ∧
    faultDue (holding 0x00EE State.reset) = rec? .stackUnderflow 0x200 ∧
    faultDue (holding 0x00EE { State.reset with sp := 1 }) = none ∧
    faultDue (holding 0xE19E { State.reset with v := regs [(1, 16)] }) = rec? .keyOob 0x10 ∧
    faultDue (holding 0xE1A1 { State.reset with v := regs [(1, 15)] }) = none := by decide

/-- A core halted by a `RET` on an empty stack, its program byte in memory. -/
def haltedCore : State := { (holding 0x00EE State.reset) with fault := rec? .stackUnderflow 0x200 }

/-- Every clause of the invariant says something of it. -/
theorem haltedCore_inv : Inv haltedCore where
  memory := by decide
  stack := by decide
  pc := by decide
  fault := by
    intro r h
    cases h
    decide
  pulses := by decide

theorem witness_StepKeepsTheInvariant : ∃ s t, Inv s ∧ s.fault ≠ none ∧ s.mem ≠ [] ∧ step s = .next t :=
  ⟨haltedCore, _, haltedCore_inv, by decide, by decide, rfl⟩

/-- Every move from the halted core, its load port closed; a load at each end of the program area while the port is open. -/
theorem witness_HostMovesKeepTheInvariant :
    (∃ c : Console, Inv c.core ∧ (c.loadOpen = true → c.core.fault = none) ∧ (∃ d, c.apply .reset = some d) ∧
      (∃ d, c.apply (.setKeys 0xFFFF) = some d) ∧ ∃ d, c.apply .step = some d) ∧
    ∃ c : Console, Inv c.core ∧ c.loadOpen = true ∧ c.core.fault = none ∧ (∃ d, c.apply (.load 0x200 1) = some d) ∧
      ∃ d, c.apply (.load 0xFFF 1) = some d :=
  ⟨⟨⟨haltedCore, false, GlyphRom.default⟩, haltedCore_inv, by decide, ⟨_, rfl⟩, ⟨_, rfl⟩, ⟨_, rfl⟩⟩,
    ⟨⟨{ State.reset with i := 1 }, true, GlyphRom.default⟩, ⟨by decide, by decide, by decide, by decide, by decide⟩, rfl, rfl,
      ⟨_, rfl⟩, ⟨_, rfl⟩⟩⟩

/-- Every kind of host move, the ends of the program area loaded. -/
theorem witness_EveryHostRunKeepsTheInvariant :
    ∃ c, (Console.powerOn GlyphRom.default).run
      [.load 0x200 0x12, .load 0xFFF 0xFF, .setKeys 0xFFFF, .step, .reset, .step] = some c :=
  Option.isSome_iff_exists.mp (by decide)

theorem witness_LoadPortWritesOnlyTheProgramArea :
    ∃ c d : Console, (c.loadOpen = true ∧ 0x200 ≤ (0x200 : BitVec 12).toNat ∧ 0x200 ≤ (0xFFF : BitVec 12).toNat) ∧
      (0x1FF : BitVec 12).toNat < 0x200 ∧ c.apply .step = some d ∧ d.loadOpen = false :=
  ⟨Console.powerOn GlyphRom.default, _, by decide, by decide, rfl, rfl⟩

/-- The start and the end of one step of a given state, related by `p`. -/
theorem stepsTo (s : State) (p : State → State → Prop) [∀ a b, Decidable (p a b)]
    (h : steppedTo s (fun t => decide (p s t)) = true) : ∃ a b, step a = .next b ∧ p a b :=
  ⟨s, reaches (p s) h⟩

/-- The longest image that is taken, and the shortest that is refused. -/
theorem witness_LoadPortWritesOnlyTheProgramArea_images :
    (List.replicate 3584 (0 : Byte)).length ≤ 3584 ∧ 3584 < (List.replicate 3585 (0 : Byte)).length := by
  simp only [List.length_replicate]
  decide

theorem witness_OnlyClsAndDrwWriteTheScreen :
    (∃ s t, step s = .next t ∧ t.fb ≠ s.fb ∧ decode (wordAt s) = .instr (.cls 0)) ∧
    (∃ s t, step s = .next t ∧ t.fb ≠ s.fb ∧ decode (wordAt s) = .instr (.drw 0 0 5)) ∧
    Fetches (holding 0x00E0 State.reset) (.cls 0) ∧ FetchesUnknown (holding 0xF000 State.reset) ∧
    (∃ s t, step s = .next t ∧ t.fault ≠ none) ∧
    ∃ c : Console, (∃ d, c.apply (.load 0x200 1) = some d) ∧ (∃ d, c.apply (.setKeys 1) = some d) ∧
      ∃ d, c.apply .reset = some d :=
  ⟨stepsTo (holding 0x00E0 { State.reset with fb := rows [(31, 1)] })
      (fun s t => t.fb ≠ s.fb ∧ decode (wordAt s) = .instr (.cls 0)) (by decide),
    stepsTo (holding 0xD005 State.reset)
      (fun s t => t.fb ≠ s.fb ∧ decode (wordAt s) = .instr (.drw 0 0 5)) (by decide),
    fetches_of (by decide), fetchesUnknown_of (r := .unknownF 0xF000) (by decide),
    stepsTo (holding 0x00EE State.reset) (fun _ t => t.fault ≠ none) (by decide),
    Console.powerOn GlyphRom.default, ⟨_, rfl⟩, ⟨_, rfl⟩, ⟨_, rfl⟩⟩

theorem witness_OnlyThreeInstructionsWriteTheIndex :
    (∃ s t, step s = .next t ∧ t.i ≠ s.i ∧ decode (wordAt s) = .instr (.ldI 0xFFF)) ∧
    (∃ s t, step s = .next t ∧ t.i ≠ s.i ∧ decode (wordAt s) = .instr (.addIVx 1)) ∧
    ∃ s t, step s = .next t ∧ t.i ≠ s.i ∧ decode (wordAt s) = .instr (.ldFVx 1) :=
  ⟨stepsTo (holding 0xAFFF State.reset) (fun s t => t.i ≠ s.i ∧ decode (wordAt s) = .instr (.ldI 0xFFF)) (by decide),
    stepsTo (holding 0xF11E { State.reset with v := regs [(1, 1)] })
      (fun s t => t.i ≠ s.i ∧ decode (wordAt s) = .instr (.addIVx 1)) (by decide),
    stepsTo (holding 0xF129 { State.reset with v := regs [(1, 1)] })
      (fun s t => t.i ≠ s.i ∧ decode (wordAt s) = .instr (.ldFVx 1)) (by decide)⟩

theorem witness_OnlyCallAndRetMoveTheStack :
    (∃ s t, step s = .next t ∧ t.sp ≠ s.sp ∧ t.stack[15] ≠ s.stack[15] ∧ s.sp = 15) ∧
    (∃ s t, step s = .next t ∧ t.sp ≠ s.sp ∧ t.stack[0] ≠ s.stack[0] ∧ s.sp = 0) ∧
    ∃ s t, step s = .next t ∧ t.sp ≠ s.sp ∧ s.sp = 16 :=
  ⟨stepsTo (holding 0x2300 { State.reset with sp := 15 })
      (fun s t => t.sp ≠ s.sp ∧ t.stack[15] ≠ s.stack[15] ∧ s.sp = 15) (by decide),
    stepsTo (holding 0x2300 State.reset)
      (fun s t => t.sp ≠ s.sp ∧ t.stack[0] ≠ s.stack[0] ∧ s.sp = 0) (by decide),
    stepsTo (holding 0x00EE { State.reset with sp := 16 }) (fun s t => t.sp ≠ s.sp ∧ s.sp = 16) (by decide)⟩

theorem witness_OnlyTwoInstructionsStore :
    (∃ s t, step s = .next t ∧ t.readByte 0xFFF ≠ s.readByte 0xFFF ∧ decode (wordAt s) = .instr (.ldBVx 1)) ∧
    ∃ s t, step s = .next t ∧ t.readByte 0xFFF ≠ s.readByte 0xFFF ∧ decode (wordAt s) = .instr (.storeRegs 15) :=
  ⟨stepsTo (holding 0xF133 { State.reset with i := 0xFFD, v := regs [(1, 1)] })
      (fun s t => t.readByte 0xFFF ≠ s.readByte 0xFFF ∧ decode (wordAt s) = .instr (.ldBVx 1)) (by decide),
    stepsTo (holding 0xFF55 { State.reset with i := 0xFF0, v := regs [(15, 1)] })
      (fun s t => t.readByte 0xFFF ≠ s.readByte 0xFFF ∧ decode (wordAt s) = .instr (.storeRegs 15)) (by decide)⟩

theorem witness_OnlySixInstructionsWriteTheFlag :
    (∃ s t, step s = .next t ∧ t.reg 15 ≠ s.reg 15 ∧ decode (wordAt s) = .instr (.ldByte 15 1)) ∧
    (∃ s t, step s = .next t ∧ t.reg 15 ≠ s.reg 15 ∧ t.fault = none ∧ decode (wordAt s) = .instr (.addReg 1 2)) ∧
    flagWriter (.addReg 1 2) = true ∧ (∀ x y, Instr.addReg 1 2 ≠ .shl x y) ∧
    Fetches (holding 0x810E { State.reset with v := regs [(1, 0x80)] }) (.shl 1 0) :=
  ⟨stepsTo (holding 0x6F01 State.reset)
      (fun s t => t.reg 15 ≠ s.reg 15 ∧ decode (wordAt s) = .instr (.ldByte 15 1)) (by decide),
    stepsTo (holding 0x8124 { State.reset with v := regs [(1, 255), (2, 1)] })
      (fun s t => t.reg 15 ≠ s.reg 15 ∧ t.fault = none ∧ decode (wordAt s) = .instr (.addReg 1 2)) (by decide),
    by decide, by simp, fetches_of (by decide)⟩

theorem witness_PcMovesByItsClass :
    Fetches (holding 0x3004 { State.reset with pc := 0xFFE }) (.seByte 0 4) ∧
    faultDue (holding 0x3004 { State.reset with pc := 0xFFE }) = none := ⟨fetches_of (by decide), by decide⟩

theorem witness_EveryRunningStepTicksOnce :
    (Fetches (holding 0xF118 { State.reset with v := regs [(1, 1)] }) (.ldSTVx 1) ∧
      ∃ t, exec (.ldSTVx 1) { (holding 0xF118 { State.reset with v := regs [(1, 1)] }) with beep := false, unknown := none }
        = .next t ∧ t.fault = none ∧ t.st.toNat = 1) ∧
    FetchesUnknown (holding 0xF0FF { State.reset with st := 1 }) ∧
    ∃ u, step (holding 0x00EE { State.reset with dt := 5, st := 1 }) = .next u ∧ u.fault ≠ none :=
  ⟨⟨fetches_of (by decide), _, rfl, rfl, by decide⟩, fetchesUnknown_of (r := .unknownF 0xF0FF) (by decide),
    reaches (fun u => u.fault ≠ none) (by decide)⟩

theorem witness_TimerMoves :
    Fetches (holding 0xF107 { State.reset with dt := 9 }) (.ldVxDT 1) ∧ Fetches (holding 0xF115 State.reset) (.ldDTVx 1) ∧
    Fetches (holding 0xFF18 { State.reset with v := regs [(15, 1)] }) (.ldSTVx 15) :=
  ⟨fetches_of (by decide), fetches_of (by decide), fetches_of (by decide)⟩

theorem witness_ReportsAreExactlyTheUnknownWords :
    (Fetches (holding 0x0123 State.reset) (.sys 0x123) ∧
      ∃ t, step (holding 0x0123 State.reset) = .next t ∧ t.unknown = some ⟨0x123, 0x200⟩) ∧
    FetchesUnknown (holding 0x8128 State.reset) ∧
    ∃ t, step (holding 0x8128 State.reset) = .next t ∧ t.unknown ≠ none :=
  ⟨⟨fetches_of (by decide), reaches (fun t => t.unknown = some ⟨0x123, 0x200⟩) (by decide)⟩,
    fetchesUnknown_of (r := .unknown8 0x8128) (by decide), reaches (fun t => t.unknown ≠ none) (by decide)⟩

/-- A state that fetches another instruction fetches none of these. -/
theorem not_fetches_of {s : State} {i j : Instr} (h : Fetches s i) (hij : i ≠ j) : ¬ Fetches s j := by
  intro g
  have e := h.2.2.symm.trans g.2.2
  exact hij (by injection e)

theorem witness_KeysReachOnlyThreeInstructions :
    (∀ x, ¬ Fetches (holding 0x1200 State.reset) (.skp x)) ∧ (∀ x, ¬ Fetches (holding 0x1200 State.reset) (.sknp x)) ∧
    ∀ x, ¬ Fetches (holding 0x1200 State.reset) (.ldVxK x) := by
  have h : Fetches (holding 0x1200 State.reset) (.jp 0x200) := fetches_of (by decide)
  exact ⟨fun x => not_fetches_of h (by simp), fun x => not_fetches_of h (by simp), fun x => not_fetches_of h (by simp)⟩

theorem witness_RandomBytesReachOnlyRnd :
    Fetches (holding 0xC1FF State.reset) (.rnd 1 0xFF) ∧ ∀ x kk, ¬ Fetches (holding 0x1200 State.reset) (.rnd x kk) := by
  have h : Fetches (holding 0x1200 State.reset) (.jp 0x200) := fetches_of (by decide)
  exact ⟨fetches_of (by decide), fun x kk => not_fetches_of h (by simp)⟩

/-- One entry in use; the dead entries differ. -/
theorem witness_DeadStackEntriesAreUnobservable :
    ∃ (s : State) (stack' : Vector Word 16), stack' ≠ s.stack ∧ 0 < s.sp.val ∧
      ∀ k, (h : k < 16) → k < s.sp.val → stack'[k] = s.stack[k] :=
  ⟨{ State.reset with sp := 1 }, State.reset.stack.set 1 0x300, by decide, by decide, by decide⟩

theorem witness_FinishedProgramOnlyRunsDownTimers : Finished (holding 0x1200 { State.reset with st := 1 }) :=
  ⟨0x200, fetches_of (by decide), by decide⟩

theorem witness_RetPopsAndAddsTwo : 0 < (1 : Fin 17).val ∧ 0 < (16 : Fin 17).val ∧ State.reset.sp.val = 0 := by decide

theorem witness_CallPushesItsOwnAddress :
    State.reset.sp.val < 16 ∧ (15 : Fin 17).val < 16 ∧ ({ State.reset with sp := 16 } : State).sp.val = 16 := by decide

theorem witness_AddSetsSumAndCarry : (0 : RegIx) ≠ 15 ∧ (14 : RegIx) ≠ 15 := by decide

theorem witness_SubtractionsSetDifferenceAndFlag : (0 : RegIx) ≠ 15 ∧ (14 : RegIx) ≠ 15 := by decide

theorem witness_ShiftsMoveOnePlace : (0 : RegIx) ≠ 15 ∧ (14 : RegIx) ≠ 15 := by decide

theorem witness_BcdStoresThreeDigits : ({ State.reset with i := 0xFFD } : State).dataAddr 2 ≤ 0xFFF := by decide

theorem witness_StoreWritesTheInclusiveRange :
    ({ State.reset with i := 0xFFF } : State).dataAddr (0 : RegIx).val ≤ 0xFFF ∧
    ({ State.reset with i := 0xFF0 } : State).dataAddr (15 : RegIx).val ≤ 0xFFF := by decide

theorem witness_LoadReadsTheInclusiveRange :
    ({ State.reset with i := 0xFFF } : State).dataAddr (0 : RegIx).val ≤ 0xFFF ∧
    ({ State.reset with i := 0xFF0 } : State).dataAddr (15 : RegIx).val ≤ 0xFFF := by decide

theorem witness_StoreThenLoadRoundTrip :
    ({ State.reset with i := 0xFFF } : State).dataAddr (0 : RegIx).val ≤ 0xFFF ∧
    ({ State.reset with i := 0xFF0 } : State).dataAddr (15 : RegIx).val ≤ 0xFFF := by decide

theorem witness_RangesBeyondMemoryFault :
    0xFFF < ({ State.reset with i := 0xFFE } : State).dataAddr 2 ∧
    0xFFF < ({ State.reset with i := 0x1000 } : State).dataAddr (0 : RegIx).val ∧
    0xFFF < ({ State.reset with i := 0xFF1 } : State).dataAddr (15 : RegIx).val ∧
    0 < (1 : BitVec 4).toNat ∧ 0xFFF < ({ State.reset with i := 0x1000 } : State).i.toNat + (1 : BitVec 4).toNat - 1 ∧
    0 < (15 : BitVec 4).toNat ∧ 0xFFF < ({ State.reset with i := 0xFF2 } : State).i.toNat + (15 : BitVec 4).toNat - 1 := by
  decide

theorem witness_StoredBytesAreFetchedNext :
    ∃ s : State, Fetches s (.storeRegs 1) ∧ s.i = s.pc + 2 ∧ 1 ≤ (1 : RegIx).val ∧ s.dataAddr (1 : RegIx).val ≤ 0xFFF :=
  ⟨holding 0xF155 { State.reset with i := 0x202 }, fetches_of (by decide), by decide, by decide, by decide⟩

/-- A call to the last address a word can be fetched from, with one entry left. -/
theorem witness_CallThenReturnComesBack :
    ∃ s : State, Fetches s (.call 0xFFE) ∧ s.sp.val < 16 ∧ (0xFFE : BitVec 12).toNat ≤ 0xFFE ∧
      decode (wordOfBytes (s.readByte (0xFFE : BitVec 12).toNat) (s.readByte ((0xFFE : BitVec 12).toNat + 1)))
        = .instr (.ret 0) :=
  ⟨holding 0x2FFE { State.reset with sp := 15, mem := Memory.writeList [] 0xFFE [0x00, 0xEE] },
    fetches_of (by decide), by decide, by decide, by decide⟩

/-- No rows; the last rows of memory. -/
theorem witness_DrawTogglesExactlyTheSprite_ranges :
    (0 : BitVec 4).toNat = 0 ∧
    ({ State.reset with i := 0xFF1 } : State).i.toNat + (15 : BitVec 4).toNat - 1 ≤ 0xFFF ∧
    ({ State.reset with i := 0xFFF } : State).i.toNat + (1 : BitVec 4).toNat - 1 ≤ 0xFFF := by decide

/-- Glyph 0 at (0, 0), B4.2: cell 0 is covered and lit, cell 4 is not covered; on a dark screen nothing covered is lit. -/
theorem witness_DrawTogglesExactlyTheSprite :
    (spriteCovers { State.reset with fb := rows [(0, 1)] } 0 0 1 0 ∧
      ({ State.reset with fb := rows [(0, 1)] } : State).cell 0 = true) ∧
    ¬ spriteCovers State.reset 0 0 1 4 ∧ ∀ c, c < 2048 → spriteCovers State.reset 0 0 1 c → State.reset.cell c = false := by
  refine ⟨⟨⟨0, by decide, 0, by decide, by decide, by decide⟩, by decide⟩, ?_, ?_⟩
  · rintro ⟨row, hrow, col, hcol, hbit, hc⟩
    interval_cases row
    interval_cases col <;> first | omega | (revert hbit; decide)
  · intro c _ _
    simp [State.cell, litAt, State.reset]

theorem witness_DrawTwiceRestoresTheScreen :
    (0 : BitVec 4).toNat = 0 ∧ ({ State.reset with i := 0xFFF } : State).i.toNat + (1 : BitVec 4).toNat - 1 ≤ 0xFFF := by
  decide

/-- Row 0 of glyph 0, `F0`, at (0, 0): its four cells all unlit, then all lit, then one of them unlit. -/
theorem witness_SecondDrawHitsTheCellsUnlitBefore :
    State.reset.i.toNat + (1 : BitVec 4).toNat - 1 ≤ 0xFFF ∧
    (∀ c, c < 2048 → spriteCovers State.reset 0 0 1 c → State.reset.cell c = false) ∧
    (∃ row, row < (1 : BitVec 4).toNat ∧ State.reset.readByte (State.reset.i.toNat + row) ≠ 0) ∧
    (∀ c, c < 2048 → spriteCovers { State.reset with fb := rows [(0, 0xF)] } 0 0 1 c →
      ({ State.reset with fb := rows [(0, 0xF)] } : State).cell c = true) ∧
    spriteCovers { State.reset with fb := rows [(0, 0xE)] } 0 0 1 0 ∧
    ({ State.reset with fb := rows [(0, 0xE)] } : State).cell 0 = false := by
  refine ⟨by decide, ?_, ⟨0, by decide, by decide⟩, ?_, ⟨0, by decide, 0, by decide, by decide, by decide⟩, by decide⟩
  · intro c _ _
    simp [State.cell, litAt, State.reset]
  · rintro c - ⟨row, hrow, col, hcol, hbit, rfl⟩
    interval_cases row
    interval_cases col <;> first | decide | (revert hbit; decide)

/-- R214 (b) fails over lit cells: the first draw hits and unlights the cell, the second finds it unlit (R212, log 31). -/
theorem test_second_draw_over_lit_cell :
    steppedTo (holding 0xD011 { State.reset with fb := rows [(0, 0xF)] }) (fun t =>
      t.reg 15 == 1 && steppedTo (holding 0xD011 t) (fun u => u.reg 15 == 0 && u.fb == rows [(0, 0xF)])) = true := by
  decide

theorem witness_SpriteBitsWrapCellByCell : (63 : Nat) < 64 ∧ (31 : Nat) < 32 ∧ (2047 : Nat) < 2048 := by decide

theorem witness_KeySkipsTestTheLatch :
    (({ State.reset with v := regs [(1, 15)] } : State).reg 1).toNat ≤ 15 ∧
    15 < (({ State.reset with v := regs [(1, 16)] } : State).reg 1).toNat := by decide

theorem witness_KeyWaitStallsOrTakesTheLowestKey :
    (∀ k, k < 16 → State.reset.keys.getLsbD k = false) ∧
    (({ State.reset with keys := 0x8000 } : State).keys.getLsbD 15 = true ∧
      ∀ j, j < 15 → ({ State.reset with keys := 0x8000 } : State).keys.getLsbD j = false) ∧
    (({ State.reset with keys := 0xFFFF } : State).keys.getLsbD 0 = true ∧
      ∀ j, j < 0 → ({ State.reset with keys := 0xFFFF } : State).keys.getLsbD j = false) := by decide

theorem witness_StalledStepOnlyTicks :
    (Fetches (holding 0xF30A State.reset) (.ldVxK 3) ∧ (holding 0xF30A State.reset).keys = 0) ∧
    Fetches (holding 0xFF0A { State.reset with keys := 0x8000 }) (.ldVxK 15) ∧
    (holding 0xFF0A { State.reset with keys := 0x8000 }).keys ≠ 0 :=
  ⟨⟨fetches_of (by decide), by decide⟩, fetches_of (by decide), by decide⟩

end Sys2Proof.Tests
end

section
/-! SUPPORT. What the next step of a state is decided by: halted, unfetchable, an instruction, or an unknown word. -/

namespace Sys2Proof.Machine

variable {s : State}

/-- A core is halted, cannot fetch, fetches an instruction, or fetches an unknown word (R121, R122, R123). -/
theorem fetch_cases (s : State) :
    (∃ r, s.fault = some r) ∨ (s.fault = none ∧ 0xFFE < s.pc.toNat) ∨ (∃ i, Fetches s i) ∨ FetchesUnknown s := by
  cases hf : s.fault with
  | some r => exact .inl ⟨r, rfl⟩
  | none =>
    refine .inr ?_
    rcases Nat.lt_or_ge 0xFFE s.pc.toNat with hp | hp
    · exact .inl ⟨rfl, hp⟩
    · refine .inr ?_
      cases hd : decode (wordAt s) with
      | instr i => exact .inl ⟨i, hf, hp, hd⟩
      | reject r => exact .inr ⟨hf, hp, r, hd⟩

theorem step_of_fetches {i : Instr} (h : Fetches s i) : step s = endResult (exec i s.clearOutputs) := by
  obtain ⟨hf, hp, hd⟩ := h
  rw [step_of_fetched hf hp]
  exact runWord_of_instr hd

theorem step_of_fetchesUnknown (h : FetchesUnknown s) :
    step s = .next (s.clearOutputs.unknownOpcode (wordAt s)).endStep := by
  obtain ⟨hf, hp, r, hd⟩ := h
  rw [step_of_fetched hf hp]
  exact runWord_of_reject hd

/-- A state fetches at most one instruction. -/
theorem Fetches.unique {i j : Instr} (hi : Fetches s i) (hj : Fetches s j) : i = j := by
  obtain ⟨-, -, hdi⟩ := hi
  obtain ⟨-, -, hdj⟩ := hj
  exact Decoded.instr.inj (hdi.symm.trans hdj)

end Sys2Proof.Machine
end

section
/-! SUPPORT. Two states that differ only in the counter of random bytes (R5, log 4): every shared operation commutes with
setting the counter, so every instruction but `RND` does, and so does the step. -/

namespace Sys2Proof.Machine

/-- `s` with other random bytes to come: the coming step's is `Config.rndByte d` (log 4). -/
def State.withDraws (s : State) (d : Nat) : State := { s with draws := d }

variable (s : State) (d : Nat)

theorem withRange_withDraws {n : Nat} {body body' : State} (hb : body' = body.withDraws d) :
    (s.withDraws d).withRange n body' = (s.withRange n body).withDraws d := by
  rcases withRange_spec s n body with ⟨hfits, h⟩ | ⟨h0, hoob, h⟩
  · rw [h, ← hb]
    exact withRange_of_fits (s.withDraws d) hfits
  · rw [h]
    exact withRange_of_oob (s.withDraws d) h0 hoob

theorem withKey_withDraws {key : Byte} {body body' : State} (hb : body' = body.withDraws d) :
    (s.withDraws d).withKey key body' = (s.withKey key body).withDraws d := by
  rw [hb]
  unfold State.withKey
  split <;> rfl

theorem callTo_withDraws (w : Word) : (s.withDraws d).callTo w = (s.callTo w).withDraws d := by
  unfold State.callTo
  rw [apply_dite (State.withDraws · d)]
  rfl

theorem returnFromCall_withDraws : (s.withDraws d).returnFromCall = s.returnFromCall.withDraws d := by
  unfold State.returnFromCall
  rw [apply_dite (State.withDraws · d)]
  rfl

/-- The end of the step counts one random byte on, or none after a fault: the counters may differ, nothing else does. -/
theorem endStep_withDraws : ∃ d', (s.withDraws d).endStep = s.endStep.withDraws d' := by
  cases h : s.fault with
  | none => exact ⟨d + 1, by rw [endStep_of_none s h, endStep_of_none (s.withDraws d) h]; rfl⟩
  | some r => exact ⟨d, by rw [endStep_of_some s h, endStep_of_some (s.withDraws d) h]⟩

/-- Every instruction but `RND` answers the same next state whatever the random byte (R171). -/
theorem exec_withDraws {i : Instr} (hi : ∀ x kk, i ≠ .rnd x kk) :
    ∃ t, exec i s = .next t ∧ exec i (s.withDraws d) = .next (t.withDraws d) := by
  cases i with
  | rnd x kk => exact absurd rfl (hi x kk)
  | ret => exact ⟨_, rfl, congrArg Host.Outcome.next (returnFromCall_withDraws s d)⟩
  | call nnn => exact ⟨_, rfl, congrArg Host.Outcome.next (callTo_withDraws s d _)⟩
  | skp | sknp => exact ⟨_, rfl, congrArg Host.Outcome.next (withKey_withDraws s d rfl)⟩
  | drw | ldBVx | storeRegs | loadRegs => exact ⟨_, rfl, congrArg Host.Outcome.next (withRange_withDraws s d rfl)⟩
  | ldVxK x =>
    have h : (s.withDraws d).lowestKey = s.lowestKey := rfl
    simp only [exec, execLdVxK, h]
    cases s.lowestKey with
    | none => exact ⟨_, rfl, rfl⟩
    | some k => exact ⟨_, rfl, rfl⟩
  | _ => exact ⟨_, rfl, rfl⟩

/-- Two states that differ only in their random bytes step to states that differ only in them, unless they fetch `RND`. -/
theorem step_withDraws (hr : ∀ x kk, ¬ Fetches s (.rnd x kk)) :
    ∃ t d', step s = .next t ∧ step (s.withDraws d) = .next (t.withDraws d') := by
  rcases fetch_cases s with ⟨r, hf⟩ | ⟨hf, hp⟩ | ⟨i, hi⟩ | hu
  · exact ⟨_, d, step_of_halted hf, step_of_halted (s := s.withDraws d) hf⟩
  · exact ⟨_, d, step_of_unfetchable hf hp, step_of_unfetchable (s := s.withDraws d) hf hp⟩
  · obtain ⟨t, hs, hd⟩ := exec_withDraws s.clearOutputs d (i := i) fun x kk h => hr x kk (h ▸ hi)
    obtain ⟨d', he⟩ := endStep_withDraws t d
    refine ⟨t.endStep, d', ?_, ?_⟩
    · rw [step_of_fetches hi, hs, endResult]
    · rw [step_of_fetches (s := s.withDraws d) hi, ← he]
      exact congrArg endResult hd
  · obtain ⟨d', he⟩ := endStep_withDraws (s.clearOutputs.unknownOpcode (wordAt s)) d
    exact ⟨_, d', step_of_fetchesUnknown hu, (step_of_fetchesUnknown (s := s.withDraws d) hu).trans (congrArg _ he)⟩

variable {s}

/-- The step of `RND`: it never faults, so the tick follows (R128, R171). -/
theorem step_of_rnd {x : RegIx} {kk : Byte} (h : Fetches s (.rnd x kk)) :
    step s = .next (s.clearOutputs.setReg x (s.rnd &&& kk)).advance.tick.nextDraw := by
  rw [step_of_fetches h]
  exact congrArg _ (endStep_of_none (s.clearOutputs.setReg x (s.rnd &&& kk)).advance h.1)

/-- Settles O28: two steps of `RND` differ at most in its destination and the counter (`step_of_rnd`), any other two in
the counter alone (`step_withDraws`). -/
theorem randomBytesReachOnlyRnd : Obligations.RandomBytesReachOnlyRnd := by
  unfold Obligations.RandomBytesReachOnlyRnd
  intro s d
  by_cases hr : ∃ x kk, Fetches s (.rnd x kk)
  · obtain ⟨x, kk, hx⟩ := hr
    refine ⟨_, _, step_of_rnd hx, step_of_rnd (s := s.withDraws d) hx, rfl, fun h => absurd hx (h x kk), ?_⟩
    intro x' kk' hx' r hne
    obtain ⟨rfl, -⟩ := Instr.rnd.inj (hx.unique hx')
    simp only [reg_nextDraw, reg_tick, reg_advance, reg_setReg, if_neg hne]
    rfl
  · have hr' : ∀ x kk, ¬ Fetches s (.rnd x kk) := fun x kk h => hr ⟨x, kk, h⟩
    obtain ⟨t, d', ht, hu⟩ := step_withDraws s d hr'
    exact ⟨t, t.withDraws d', ht, hu, rfl, fun _ => rfl, fun x kk h => absurd h (hr' x kk)⟩

end Sys2Proof.Machine
end

section
/-! SUPPORT. The state a host reset leaves, field by field (R37, R280). -/

namespace Sys2Proof.Machine

variable (s : State) (rom : GlyphRom)

theorem reg_hostReset (r : RegIx) : (s.hostReset rom).reg r = 0 := Vector.getElem_replicate r.isLt

theorem stack_hostReset (k : Nat) (h : k < 16) : (s.hostReset rom).stack[k] = 0 := Vector.getElem_replicate h

theorem readByte_hostReset (a : Nat) : (s.hostReset rom).readByte a = if h : a < 80 then rom[a] else 0 :=
  readByte_resetWith rom a

theorem cell_hostReset (c : Nat) : (s.hostReset rom).cell c = false := litAt_blank _ _

/-- Settles O17: the reset move answers `hostReset` with the load port open, and each of its fields is read off. -/
theorem resetSetsEveryPieceOfState : Obligations.ResetSetsEveryPieceOfState := by
  unfold Obligations.ResetSetsEveryPieceOfState
  intro c
  refine ⟨⟨c.core.hostReset c.rom, true, c.rom⟩, rfl, rfl, reg_hostReset _ _, rfl, rfl, stack_hostReset _ _, rfl, rfl, rfl,
    fun a h => ?_, fun a h => ?_, rfl, resetWith_default, fun k _ => cell_hostReset _ _ k, rfl, rfl, rfl, rfl⟩
  · exact (readByte_hostReset c.core c.rom a).trans (dif_pos h)
  · exact (readByte_hostReset c.core c.rom a).trans (dif_neg (Nat.not_lt.2 h))

end Sys2Proof.Machine
end

section
/-! SUPPORT. What an instruction may write, as a frame of Safety.lean: one frame per shared operation. -/

namespace Sys2Proof.Machine

/-- What each instruction may write when it does not fault, beside `pc` (R24, R27, R66, R140 to R238). -/
def writes (s : State) : Instr → MayWrite
  | .sys _ => { report := true }
  | .cls _ => { screen := true }
  | .drw _ _ _ => { regs := (· = 15), screen := true }
  | .ret _ | .call _ => { stack := true }
  | .jp _ | .jpV0 _ | .seByte _ _ | .sneByte _ _ | .seReg _ _ _ | .sneReg _ _ _ | .skp _ | .sknp _ => {}
  | .ldByte x _ | .addByte x _ | .ldReg x _ | .orReg x _ | .andReg x _ | .xorReg x _ | .rnd x _ | .ldVxDT x
  | .ldVxK x => { regs := (· = x) }
  | .addReg x _ | .subReg x _ | .shr x _ | .subn x _ | .shl x _ => { regs := fun r => r = x ∨ r = 15 }
  | .ldI _ | .addIVx _ | .ldFVx _ => { index := true }
  | .ldDTVx _ => { delay := true }
  | .ldSTVx _ => { sound := true }
  | .ldBVx _ => { mem := fun a => s.dataAddr 0 ≤ a ∧ a < s.dataAddr 3 }
  | .storeRegs x => { mem := fun a => s.dataAddr 0 ≤ a ∧ a < s.dataAddr (x.val + 1) }
  | .loadRegs x => { regs := fun r => r.val < x.val + 1 }

variable (s : State) {t : State} {w : MayWrite}

theorem Frame.refl (w : MayWrite) : Frame w s s where
  regs _ _ := rfl
  index _ := rfl
  stack _ := ⟨rfl, rfl⟩
  delay _ := rfl
  sound _ := rfl
  mem _ _ := rfl
  screen _ := rfl
  report _ := rfl
  host := ⟨rfl, rfl, rfl, rfl⟩

/-- `pc` is in no frame: `advance`, `skipIf` and `jumpTo` keep every frame. -/
theorem Frame.setPc {s : State} (h : Frame w s t) (pc : Word) : Frame w s { t with pc := pc } :=
  { h with }

theorem frame_setReg (x : RegIx) (b : Byte) : Frame { regs := (· = x) } s (s.setReg x b) :=
  { Frame.refl s _ with regs := fun r hr => (reg_setReg s x r b).trans (if_neg hr) }

theorem frame_setRegFlag (x : RegIx) (b f : Byte) :
    Frame { regs := fun r => r = x ∨ r = 15 } s (s.setRegFlag x b f) :=
  { Frame.refl s _ with
    regs := fun r hr => by rw [reg_setRegFlag, if_neg fun h => hr (.inr h), if_neg fun h => hr (.inl h)] }

theorem frame_loadFrom (a n : Nat) : Frame { regs := fun r => r.val < n } s (s.loadFrom a n) :=
  { Frame.refl s _ with regs := fun r hr => (reg_loadFrom s a n r).trans (if_neg hr) }

theorem frame_setIndex (b : Word) : Frame { index := true } s (s.setIndex b) :=
  { Frame.refl s _ with index := nofun }

theorem frame_setDelay (b : Byte) : Frame { delay := true } s (s.setDelay b) :=
  { Frame.refl s _ with delay := nofun }

theorem frame_setSound (b : Byte) : Frame { sound := true } s (s.setSound b) :=
  { Frame.refl s _ with sound := nofun }

theorem frame_setScreen (fb : Vector (BitVec 64) 32) : Frame { screen := true } s (s.setScreen fb) :=
  { Frame.refl s _ with screen := nofun }

theorem frame_unknownOpcode (b : Word) : Frame { report := true } s (s.unknownOpcode b) :=
  { Frame.refl s _ with report := nofun }

theorem frame_storeBytes (a : Nat) (us : List Byte) :
    Frame { mem := fun p => a ≤ p ∧ p < a + us.length } s (s.storeBytes a us) :=
  { Frame.refl s _ with mem := fun p hp => (readByte_storeBytes s a us p).trans (if_neg hp) }

/-- The blit of a `DRW`, from a state whose VF it has zeroed, writes VF and the screen (R212, R213). -/
theorem frame_drawSprite (x y : RegIx) (n : Nat) :
    Frame { regs := (· = 15), screen := true } s ((s.setReg Config.flagReg 0).drawSprite x y n) :=
  { Frame.refl s _ with
    regs := fun r hr => by
      simp only [State.drawSprite, reg_advance, reg_setReg, reg_setScreen, Config.flagReg, if_neg hr]
    screen := nofun }

end Sys2Proof.Machine
end

section
/-! SUPPORT. Said once of every instruction: it raises the fault that is due and does nothing else, or it moves `pc` by its
class, writes inside its frame, and keeps memory canonical (R124, R125, R251, R252). -/

namespace Sys2Proof.Machine

/-- Instruction `i` takes `s` to `t` without a fault. -/
structure Completes (i : Instr) (s t : State) : Prop where
  noFault : instrFault s i = none
  pc : t.pc = pcAfter s i
  frame : Frame (writes s i) s t
  wf : Memory.wf s.mem = true → Memory.wf t.mem = true

/-- Instruction `i` takes `s` to `t`, by the fault that is due or by completing. -/
def FaultsOrCompletes (i : Instr) (s t : State) : Prop :=
  (∃ r, instrFault s i = some r ∧ t = s.raise r.code r.info) ∨ Completes i s t

variable {s t : State} {i : Instr}

/-! ### The operations that can fault -/

theorem rangeFault_of_fits {n : Nat} (h : n = 0 ∨ s.i.toNat + n ≤ 0x1000) : rangeFault n s = none :=
  if_neg (by omega)

theorem rangeFault_of_oob {n : Nat} (h0 : 0 < n) (h : 0x1000 < s.i.toNat + n) :
    rangeFault n s = some ⟨.memOob, s.lowestOob⟩ := by
  rw [rangeFault, if_pos (by omega), ← lowestOob_toNat, BitVec.ofNat_toNat, BitVec.setWidth_eq]

/-- An access to the `n` bytes at `I` faults by R251's row, or completes as its body does. -/
theorem faultsOrCompletes_withRange {n : Nat} {body : State} (hi : instrFault s i = rangeFault n s)
    (hpc : body.pc = pcAfter s i) (hf : Frame (writes s i) s body)
    (hw : n = 0 ∨ s.i.toNat + n ≤ 0x1000 → Memory.wf s.mem = true → Memory.wf body.mem = true) :
    FaultsOrCompletes i s (s.withRange n body) := by
  rcases withRange_spec s n body with ⟨hfits, h⟩ | ⟨h0, hoob, h⟩
  · rw [h]
    exact .inr ⟨hi.trans (rangeFault_of_fits hfits), hpc, hf, hw hfits⟩
  · exact .inl ⟨_, hi.trans (rangeFault_of_oob h0 hoob), h⟩

/-- A key test of `V[x]` faults by R251's row, or completes as its body does. -/
theorem faultsOrCompletes_withKey {x : RegIx} {body : State} (hi : instrFault s i = instrFault s (.skp x))
    (hpc : body.pc = pcAfter s i) (hf : Frame (writes s i) s body) (hm : body.mem = s.mem) :
    FaultsOrCompletes i s (s.withKey (s.reg x) body) := by
  rcases withKey_spec s (s.reg x) body with ⟨hk, h⟩ | ⟨hk, h⟩
  · rw [h]
    exact .inr ⟨hi.trans (if_neg (Nat.not_lt.2 hk)), hpc, hf, fun hw => hm ▸ hw⟩
  · refine .inl ⟨_, hi.trans (if_pos hk), ?_⟩
    rw [h, BitVec.ofNat_toNat]
    rfl

theorem faultsOrCompletes_callTo (nnn : BitVec 12) : FaultsOrCompletes (.call nnn) s (s.callTo (addrOf nnn)) := by
  rcases callTo_spec s (addrOf nnn) with ⟨hsp, h⟩ | ⟨hsp, h⟩
  · refine .inr (h ▸ ⟨if_neg (Nat.ne_of_lt hsp), (BitVec.ofNat_toNat 16 nnn).symm, ?_, id⟩)
    exact { Frame.refl s _ with stack := nofun }
  · exact .inl ⟨_, if_pos hsp, h⟩

theorem faultsOrCompletes_returnFromCall (z : BitVec 4) : FaultsOrCompletes (.ret z) s s.returnFromCall := by
  rcases returnFromCall_spec s with ⟨hsp, h⟩ | ⟨hsp, h⟩
  · refine .inr (h ▸ ⟨if_neg (Nat.ne_of_gt hsp), ?_, ?_, id⟩)
    · simp [pcAfter, BitVec.ofNat_add, List.getD_eq_getElem?_getD, show s.sp.val - 1 < 16 by omega]
    · exact { Frame.refl s _ with stack := nofun }
  · exact .inl ⟨_, if_pos hsp, h⟩

/-! ### `pc` of the skips -/

theorem skipIf_pc_eq {p : Prop} [Decidable p] {c : Bool} (h : c = true ↔ p) :
    (s.skipIf c).pc = if p then s.pc + 4 else s.pc + 2 := by
  by_cases hp : p
  · rw [skipIf_pc, h.2 hp, if_pos hp, if_pos rfl]
  · rw [skipIf_pc, if_neg hp, if_neg fun hc => hp (h.1 hc)]

theorem skipIf_pc_ne {p : Prop} [Decidable p] {c : Bool} (h : c = true ↔ ¬ p) :
    (s.skipIf c).pc = if p then s.pc + 2 else s.pc + 4 := by
  rw [skipIf_pc_eq h, ite_not]

/-! ### Every instruction -/

/-- The execute phase always answers, with the fault that is due or by completing (R124, R125, R251). -/
theorem exec_spec (i : Instr) (s : State) : ∃ t, exec i s = .next t ∧ FaultsOrCompletes i s t := by
  cases i with
  | sys => exact ⟨_, rfl, .inr ⟨rfl, rfl, frame_unknownOpcode s _, id⟩⟩
  | cls => exact ⟨_, rfl, .inr ⟨rfl, rfl, (frame_setScreen s _).setPc _, id⟩⟩
  | ret z => exact ⟨_, rfl, faultsOrCompletes_returnFromCall z⟩
  | call nnn => exact ⟨_, rfl, faultsOrCompletes_callTo nnn⟩
  | jp nnn => exact ⟨_, rfl, .inr ⟨rfl, (BitVec.ofNat_toNat 16 nnn).symm, (Frame.refl s _).setPc _, id⟩⟩
  | jpV0 nnn =>
    refine ⟨_, rfl, .inr ⟨rfl, ?_, (Frame.refl s _).setPc _, id⟩⟩
    simp [pcAfter, BitVec.ofNat_add, addrOf, zext16]
  | seByte | seReg =>
    exact ⟨_, rfl, .inr ⟨rfl, skipIf_pc_eq beq_iff_eq, (Frame.refl s _).setPc _, id⟩⟩
  | sneByte | sneReg =>
    exact ⟨_, rfl, .inr ⟨rfl, skipIf_pc_ne bne_iff_ne, (Frame.refl s _).setPc _, id⟩⟩
  | skp x =>
    exact ⟨_, rfl, faultsOrCompletes_withKey rfl (skipIf_pc_eq Iff.rfl) ((Frame.refl s _).setPc _) rfl⟩
  | sknp x =>
    refine ⟨_, rfl, faultsOrCompletes_withKey rfl (skipIf_pc_ne ?_) ((Frame.refl s _).setPc _) rfl⟩
    simp [State.keySet]
  | ldByte x | addByte x | ldReg x | orReg x | andReg x | xorReg x | rnd x | ldVxDT x =>
    exact ⟨_, rfl, .inr ⟨rfl, rfl, (frame_setReg s x _).setPc _, id⟩⟩
  | addReg x | subReg x | shr x | subn x | shl x =>
    exact ⟨_, rfl, .inr ⟨rfl, rfl, (frame_setRegFlag s x _ _).setPc _, id⟩⟩
  | ldVxK x =>
    simp only [exec, execLdVxK]
    cases hk : s.lowestKey with
    | none =>
      have h0 : s.keys = 0 := (lowestKey_eq_none s).1 hk
      exact ⟨_, rfl, .inr ⟨rfl, (if_pos h0).symm, Frame.refl s _, id⟩⟩
    | some k =>
      have h0 : s.keys ≠ 0 := fun h => by simp [(lowestKey_eq_none s).2 h] at hk
      exact ⟨_, rfl, .inr ⟨rfl, (if_neg h0).symm, (frame_setReg s x _).setPc _, id⟩⟩
  | ldI | addIVx | ldFVx => exact ⟨_, rfl, .inr ⟨rfl, rfl, (frame_setIndex s _).setPc _, id⟩⟩
  | ldDTVx => exact ⟨_, rfl, .inr ⟨rfl, rfl, (frame_setDelay s _).setPc _, id⟩⟩
  | ldSTVx => exact ⟨_, rfl, .inr ⟨rfl, rfl, (frame_setSound s _).setPc _, id⟩⟩
  | drw x y n =>
    exact ⟨_, rfl, faultsOrCompletes_withRange rfl rfl (frame_drawSprite s x y n.toNat) fun _ => id⟩
  | ldBVx x =>
    have hf := frame_storeBytes s (s.dataAddr 0) (digitsOf (s.reg x))
    refine ⟨_, rfl, faultsOrCompletes_withRange rfl rfl (hf.setPc _) fun hn hw => ?_⟩
    exact writeList_wf (digitsOf (s.reg x)) hw (hn.resolve_left (by decide))
  | storeRegs x =>
    have hlen : (s.firstRegs (x.val + 1)).length = x.val + 1 := length_firstRegs s x.isLt
    have hf := frame_storeBytes s (s.dataAddr 0) (s.firstRegs (x.val + 1))
    rw [hlen] at hf
    refine ⟨_, rfl, faultsOrCompletes_withRange rfl rfl (hf.setPc _) fun hn hw => writeList_wf _ hw ?_⟩
    rw [hlen]
    exact hn.resolve_left (Nat.succ_ne_zero _)
  | loadRegs x =>
    exact ⟨_, rfl, faultsOrCompletes_withRange rfl rfl ((frame_loadFrom s _ _).setPc _) fun _ => id⟩

/-- An instruction that completes raises no fault of its own: FAULT is as it was. -/
theorem Completes.fault (h : Completes i s t) : t.fault = s.fault := h.frame.host.2.1

theorem Completes.keys (h : Completes i s t) : t.keys = s.keys := h.frame.host.1

end Sys2Proof.Machine
end

section
/-! SUPPORT. Said once of every step (R130): it is one of four. -/

namespace Sys2Proof.Machine

/-- The four ways a step goes: halted (R121), the fault that is due (R252), an instruction that completes and then the tick
(R124, R128), an unknown word (R126). -/
inductive Steps (s : State) : State → Prop
  | halted {r : FaultRecord} (hr : s.fault = some r) : Steps s s.clearOutputs
  | faulted {r : FaultRecord} (hf : s.fault = none) (hr : faultDue s = some r) : Steps s (s.raise r.code r.info)
  | ran {i : Instr} {u : State} (hi : Fetches s i) (hx : exec i s.clearOutputs = .next u)
      (hc : Completes i s.clearOutputs u) : Steps s u.tick.nextDraw
  | unknown (hu : FetchesUnknown s) : Steps s (s.clearOutputs.unknownOpcode (wordAt s)).tick.nextDraw

variable {s t : State} {i : Instr}

theorem instrFault_clearOutputs : instrFault s.clearOutputs i = instrFault s i := by cases i <;> rfl

/-- Once an instruction is fetched, the fault due is that instruction's (R253). -/
theorem faultDue_of_fetches (h : Fetches s i) : faultDue s = instrFault s i := by
  obtain ⟨-, hp, hd⟩ := h
  rw [faultDue, if_neg (Nat.not_lt.2 hp), hd]

theorem faultDue_of_unfetchable (h : 0xFFE < s.pc.toNat) : faultDue s = some ⟨.fetchOob, s.pc⟩ := if_pos h

theorem not_fetchesUnknown_of_fetches (h : Fetches s i) : ¬ FetchesUnknown s := by
  rintro ⟨-, -, r, hd⟩
  exact Decoded.noConfusion (h.2.2.symm.trans hd)

theorem step_cases (h : step s = .next t) : Steps s t := by
  rcases fetch_cases s with ⟨r, hf⟩ | ⟨hf, hp⟩ | ⟨i, hi⟩ | hu
  · obtain rfl := Host.Outcome.next.inj ((step_of_halted hf).symm.trans h)
    exact .halted hf
  · obtain rfl := Host.Outcome.next.inj ((step_of_unfetchable hf hp).symm.trans h)
    exact .faulted hf (faultDue_of_unfetchable hp)
  · obtain ⟨u, hx, hcases⟩ := exec_spec i s.clearOutputs
    rw [step_of_fetches hi, hx] at h
    obtain rfl := Host.Outcome.next.inj h
    rcases hcases with ⟨r, hr, rfl⟩ | hc
    · exact .faulted hi.1 ((faultDue_of_fetches hi).trans (instrFault_clearOutputs.symm.trans hr))
    · rw [endStep_of_none u (hc.fault.trans hi.1)]
      exact .ran hi hx hc
  · obtain rfl := Host.Outcome.next.inj ((step_of_fetchesUnknown hu).symm.trans h)
    rw [endStep_of_none (s.clearOutputs.unknownOpcode (wordAt s)) hu.1]
    exact .unknown hu

/-- A step that fetches `i` and does not fault is `i`, completed, and the tick. -/
theorem ran_of_fetches (hi : Fetches s i) (h : step s = .next t) (ht : t.fault = none) :
    ∃ u, exec i s.clearOutputs = .next u ∧ Completes i s.clearOutputs u ∧ t = u.tick.nextDraw := by
  cases step_cases h with
  | halted hr => exact nomatch hi.1.symm.trans hr
  | faulted => exact nomatch ht
  | ran hj hx hc =>
    obtain rfl := hi.unique hj
    exact ⟨_, hx, hc, rfl⟩
  | unknown hu => exact absurd hu (not_fetchesUnknown_of_fetches hi)

end Sys2Proof.Machine
end

section
/-! SUPPORT. Only CALL and RET move the stack (R27). -/

namespace Sys2Proof.Machine

variable {s t : State} {i : Instr}

/-- What a completed instruction leaves of the stack: `CALL` pushes `pc`, `RET` pops and keeps the entries, any other
leaves it alone (R27, R141, R143). -/
theorem stack_cases (h : exec i s = .next t) (hc : Completes i s t) :
    (∃ nnn, i = .call nnn ∧ ∃ hsp : s.sp.val < 16, t.sp.val = s.sp.val + 1 ∧ t.stack = s.stack.set s.sp.val s.pc) ∨
    (∃ z, i = .ret z ∧ t.sp.val + 1 = s.sp.val ∧ t.stack = s.stack) ∨
    (t.sp = s.sp ∧ t.stack = s.stack) := by
  cases i with
  | call nnn =>
    obtain rfl := Host.Outcome.next.inj h
    have hsp : s.sp.val ≠ 16 := fun hsp => by simpa [instrFault, hsp] using hc.noFault
    rcases callTo_spec s (addrOf nnn) with ⟨hlt, he⟩ | ⟨heq, -⟩
    · exact .inl ⟨nnn, rfl, hlt, congrArg (·.sp.val) he, congrArg (·.stack) he⟩
    · exact absurd heq hsp
  | ret z =>
    obtain rfl := Host.Outcome.next.inj h
    have hsp : s.sp.val ≠ 0 := fun hsp => by simpa [instrFault, hsp] using hc.noFault
    rcases returnFromCall_spec s with ⟨hpos, he⟩ | ⟨heq, -⟩
    · refine .inr (.inl ⟨z, rfl, ?_, congrArg (·.stack) he⟩)
      rw [he]
      exact Nat.sub_add_cancel hpos
    · exact absurd heq hsp
  | _ => exact .inr (.inr (hc.frame.stack rfl).symm)

/-- The stack after a step: what `CALL` or `RET` makes of it, or as it was (R27). -/
theorem step_stack_cases (h : step s = .next t) :
    (∃ nnn, Fetches s (.call nnn) ∧ ∃ hsp : s.sp.val < 16,
      t.sp.val = s.sp.val + 1 ∧ t.stack = s.stack.set s.sp.val s.pc) ∨
    (∃ z, Fetches s (.ret z) ∧ t.sp.val + 1 = s.sp.val ∧ t.stack = s.stack) ∨
    (t.sp = s.sp ∧ t.stack = s.stack) := by
  cases step_cases h with
  | halted | faulted | unknown => exact .inr (.inr ⟨rfl, rfl⟩)
  | ran hi hx hc =>
    rcases stack_cases hx hc with ⟨nnn, rfl, hpush⟩ | ⟨z, rfl, hpop⟩ | hsame
    · exact .inl ⟨nnn, hi, hpush⟩
    · exact .inr (.inl ⟨z, hi, hpop⟩)
    · exact .inr (.inr hsame)

/-- Settles O21: read off `step_stack_cases`; a push changes the one entry at `sp`. -/
theorem onlyCallAndRetMoveTheStack : Obligations.OnlyCallAndRetMoveTheStack := by
  unfold Obligations.OnlyCallAndRetMoveTheStack
  intro s t h
  rcases step_stack_cases h with ⟨nnn, hi, hlt, hsp, hst⟩ | ⟨z, hi, hsp, hst⟩ | ⟨hsp, hst⟩
  · refine ⟨fun _ => .inl ⟨nnn, hi, hsp⟩, fun k hk hne => ?_⟩
    have hks : k = s.sp.val := by
      by_contra hks
      exact hne (by simp only [hst, Vector.getElem_set_ne hlt hk (Ne.symm hks)])
    subst hks
    exact ⟨rfl, by simp only [hst, Vector.getElem_set_self], nnn, hi⟩
  · exact ⟨fun _ => .inr ⟨z, hi, hsp⟩, fun k hk hne => absurd (by simp only [hst]) hne⟩
  · exact ⟨fun hne => absurd hsp hne, fun k hk hne => absurd (by simp only [hst]) hne⟩

end Sys2Proof.Machine
end

section
/-! SUPPORT. The invariant: at reset, over a step, over a host move, over a host's run (R35, R36, R38, R60, R281). -/

namespace Sys2Proof.Machine

variable {s t : State} {i : Instr}

/-- A core that is not halted has three parts of the invariant to meet. -/
theorem inv_of_running (hm : Memory.wf t.mem = true) (hst : ∀ k, (h : k < 16) → t.stack[k].toNat ≤ 0xFFE)
    (hpc : t.pc.toNat ≤ 0x10FE) (hf : t.fault = none) : Inv t where
  memory := hm
  stack := hst
  pc := hpc
  fault _ hr := nomatch hf.symm.trans hr
  pulses hne := absurd hf hne

theorem inv_resetWith (rom : GlyphRom) : Inv (State.resetWith rom) := by
  refine inv_of_running (resetWith_wf rom) (fun k hk => ?_) (show (0x200 : Word).toNat ≤ 0x10FE by decide) rfl
  simp only [resetWith_stack, Vector.getElem_replicate]
  decide

/-- Settles O13: `State.reset` is the reset with the default glyph set. -/
theorem resetMeetsTheInvariant : Obligations.ResetMeetsTheInvariant := by
  unfold Obligations.ResetMeetsTheInvariant
  exact resetWith_default ▸ inv_resetWith GlyphRom.default

/-! ### A step -/

theorem inv_clearOutputs (h : Inv s) : Inv s.clearOutputs where
  memory := h.memory
  stack := h.stack
  pc := h.pc
  fault := h.fault
  pulses _ := ⟨rfl, rfl⟩

/-- The fault that is due does not depend on the latch: once latched it is still the one due. -/
theorem inv_raise (h : Inv s) {r : FaultRecord} (hr : faultDue s = some r) : Inv (s.raise r.code r.info) where
  memory := h.memory
  stack := h.stack
  pc := h.pc
  fault _ hr' := hr.trans hr'
  pulses _ := ⟨rfl, rfl⟩

theorem pc_add_le (hp : s.pc.toNat ≤ 0xFFE) : (s.pc + 2).toNat ≤ 0x1000 ∧ (s.pc + 4).toNat ≤ 0x1002 := by
  constructor <;> bv_omega

/-- Where `pc` can be after an instruction: `JP V0` reaches furthest, to 0xFFF + 0xFF (R26). -/
theorem pcAfter_le (hp : s.pc.toNat ≤ 0xFFE) (hst : ∀ k, (h : k < 16) → s.stack[k].toNat ≤ 0xFFE) :
    (pcAfter s i).toNat ≤ 0x10FE := by
  obtain ⟨h2, h4⟩ := pc_add_le hp
  cases i with
  | jp nnn | call nnn =>
    have := nnn.isLt
    simp only [pcAfter, BitVec.toNat_ofNat]
    omega
  | jpV0 nnn =>
    have := nnn.isLt
    have := (s.reg 0).isLt
    simp only [pcAfter, BitVec.toNat_ofNat]
    omega
  | ret =>
    have hsp : s.sp.val - 1 < 16 := by omega
    have hget : s.stack.toList.getD (s.sp.val - 1) 0 = s.stack[s.sp.val - 1] := by
      simp [List.getD_eq_getElem?_getD, hsp]
    have := hst _ hsp
    simp only [pcAfter, hget, BitVec.toNat_ofNat]
    omega
  | seByte | sneByte | seReg | sneReg | skp | sknp | ldVxK =>
    simp only [pcAfter]
    split <;> omega
  | _ => exact h2.trans (by decide)

/-- An entry after a step was there before, or is the address of the `CALL` just fetched (R38). -/
theorem stack_le_of_step (hst : ∀ k, (h : k < 16) → s.stack[k].toNat ≤ 0xFFE) (h : step s = .next t) (k : Nat)
    (hk : k < 16) : t.stack[k].toNat ≤ 0xFFE := by
  obtain ⟨-, hentry⟩ := onlyCallAndRetMoveTheStack s t h
  by_cases he : t.stack[k] = s.stack[k]
  · exact he ▸ hst k hk
  · obtain ⟨-, hpush, nnn, -, hp, -⟩ := hentry k hk he
    exact hpush ▸ hp

/-- Settles O14: a case for each of the four ways a step goes (`step_cases`). -/
theorem stepKeepsTheInvariant : Obligations.StepKeepsTheInvariant := by
  unfold Obligations.StepKeepsTheInvariant
  intro s t hs h
  have hst := stack_le_of_step hs.stack h
  cases step_cases h with
  | halted => exact inv_clearOutputs hs
  | faulted _ hr => exact inv_raise hs hr
  | ran hi _ hc =>
    have hpc := (congrArg BitVec.toNat hc.pc).trans_le (pcAfter_le (s := s.clearOutputs) hi.2.1 hs.stack)
    exact inv_of_running (hc.wf hs.memory) hst hpc (hc.fault.trans hi.1)
  | unknown hu => exact inv_of_running hs.memory hst ((pc_add_le hu.2.1).1.trans (by decide)) hu.1

/-! ### Host moves -/

theorem inv_hostReset (rom : GlyphRom) : Inv (s.hostReset rom) :=
  have h := inv_resetWith rom
  inv_of_running h.memory h.stack h.pc rfl

/-- A byte through the load port, taken by a core that is not halted (R74). -/
theorem inv_loadByte (h : Inv s) (hf : s.fault = none) (a : BitVec 12) (b : Byte) : Inv (s.storeBytes a.toNat [b]) :=
  inv_of_running (writeList_wf [b] h.memory (Nat.succ_le_of_lt a.isLt)) h.stack h.pc hf

/-- No fault looks at the key latch: a new one keeps what is due (R30, R251). -/
theorem inv_setKeys (h : Inv s) (k : BitVec 16) : Inv { s with keys := k } where
  memory := h.memory
  stack := h.stack
  pc := h.pc
  fault := h.fault
  pulses := h.pulses

/-- What a host's run keeps of the console: the invariant, and the load port of a halted core closed (R281). -/
def ConsoleInv (c : Console) : Prop := Inv c.core ∧ (c.loadOpen = true → c.core.fault = none)

theorem consoleInv_powerOn (rom : GlyphRom) : ConsoleInv (Console.powerOn rom) := ⟨inv_resetWith rom, fun _ => rfl⟩

theorem consoleInv_apply {c d : Console} {m : HostMove} (hc : ConsoleInv c) (h : c.apply m = some d) : ConsoleInv d := by
  obtain ⟨hinv, hopen⟩ := hc
  rcases apply_cases h with ⟨-, rfl⟩ | ⟨a, b, -, ho, -, rfl⟩ | ⟨k, -, rfl⟩ | ⟨t, -, hstep, rfl⟩
  · exact ⟨inv_hostReset c.rom, fun _ => rfl⟩
  · exact ⟨inv_loadByte hinv (hopen ho) a b, fun _ => hopen ho⟩
  · exact ⟨inv_setKeys hinv k, hopen⟩
  · exact ⟨stepKeepsTheInvariant c.core t hinv hstep, nofun⟩

theorem consoleInv_run {moves : List HostMove} {c d : Console} (hc : ConsoleInv c) (h : c.run moves = some d) :
    ConsoleInv d := by
  induction moves generalizing c with
  | nil =>
    obtain rfl := Option.some.inj h
    exact hc
  | cons m ms ih =>
    obtain ⟨b, hb, hd⟩ := run_cons.1 h
    exact ih (consoleInv_apply hc hb) hd

/-- Settles O15: power-on, and each of the four moves (`apply_cases`). -/
theorem hostMovesKeepTheInvariant : Obligations.HostMovesKeepTheInvariant := by
  unfold Obligations.HostMovesKeepTheInvariant
  exact ⟨fun rom => ⟨inv_resetWith rom, rfl, rfl⟩, fun c d m hinv hopen h => consoleInv_apply ⟨hinv, hopen⟩ h⟩

/-- Settles O16, by induction on the host's moves (`consoleInv_run`). -/
theorem everyHostRunKeepsTheInvariant : Obligations.EveryHostRunKeepsTheInvariant := by
  unfold Obligations.EveryHostRunKeepsTheInvariant
  intro rom moves c h
  exact (consoleInv_run (consoleInv_powerOn rom) h).1

end Sys2Proof.Machine
end

section
/-! SUPPORT. Who writes the index register and register 15, read off the frames (R22, R24). -/

namespace Sys2Proof.Machine

variable {s t : State} {i : Instr}

/-- Settles O20: an instruction outside the three has `I` in its frame, and no other way of a step touches it. -/
theorem onlyThreeInstructionsWriteTheIndex : Obligations.OnlyThreeInstructionsWriteTheIndex := by
  unfold Obligations.OnlyThreeInstructionsWriteTheIndex
  intro s t h hne
  cases step_cases h with
  | halted | faulted | unknown => exact absurd rfl hne
  | @ran i u hi hx hc =>
    cases i with
    | ldI nnn => exact .inl ⟨nnn, hi⟩
    | addIVx x => exact .inr (.inl ⟨x, hi⟩)
    | ldFVx x => exact .inr (.inr ⟨x, hi⟩)
    | _ => exact absurd (hc.frame.index rfl) hne

/-- The frames let register 15 change for flag writers and for a destination only. -/
theorem writes_reg15 (h : (writes s i).regs 15) : flagWriter i = true ∨ destination i = some 15 := by
  cases i with
  | addReg | subReg | shr | subn | shl | drw => exact .inl rfl
  | ldByte x | addByte x | ldReg x | orReg x | andReg x | xorReg x | rnd x | ldVxDT x | ldVxK x =>
    exact .inr (congrArg some (Eq.symm h))
  | loadRegs x =>
    have hx : (15 : RegIx).val < x.val + 1 := h
    exact .inr (congrArg some (Fin.ext (Nat.le_antisymm (Nat.le_of_lt_succ x.isLt) (Nat.le_of_lt_succ hx))))
  | _ => exact h.elim

theorem flagOf_eq (b : Bool) : flagOf b = 0 ∨ flagOf b = 1 := by
  cases b
  · exact .inl rfl
  · exact .inr rfl

theorem shrFlag_eq (a : Byte) : shrFlag a = 0 ∨ shrFlag a = 1 := by
  rw [shrFlag, show (0x01 : Byte) = BitVec.twoPow 8 0 from rfl, BitVec.and_twoPow]
  exact (ite_eq_or_eq _ _ _).symm

theorem shlFlag_eq (a : Byte) : shlFlag a = 0 ∨ shlFlag a = 0x80 := by
  rw [shlFlag, show (0x80 : Byte) = BitVec.twoPow 8 7 from rfl, BitVec.and_twoPow]
  exact (ite_eq_or_eq _ _ _).symm

/-- Register 15 after a flag-writing arithmetic instruction is its flag: it is written last (R23). -/
theorem reg15_setRegFlag (s : State) (x : RegIx) (b f : Byte) : (s.setRegFlag x b f).advance.reg 15 = f := by
  rw [reg_advance, reg_setRegFlag, if_pos rfl]

/-- Register 15 after `DRW` is the collision flag, written after the zero (R213). -/
theorem reg15_drawSprite (s : State) (x y : RegIx) (h : Nat) : ∃ hit, (s.drawSprite x y h).reg 15 = collisionFlag hit :=
  ⟨_, by rw [State.drawSprite, reg_advance, reg_setReg, if_pos rfl]⟩

theorem reg_endStep (s : State) (q : RegIx) : s.endStep.reg q = s.reg q := by
  unfold State.endStep
  split <;> rfl

/-- What a flag writer that completes leaves in register 15 (R22, R166 to R170, R213). -/
theorem reg15_of_flagWriter (hw : flagWriter i = true) (h : exec i s = .next t) (hc : Completes i s t) :
    (t.reg 15 = 0 ∨ t.reg 15 = 1) ∨ ∃ x y, i = .shl x y ∧ (t.reg 15 = 0 ∨ t.reg 15 = 0x80) := by
  cases i with
  | addReg | subReg | subn =>
    obtain rfl := Host.Outcome.next.inj h
    rw [reg15_setRegFlag]
    exact .inl (flagOf_eq _)
  | shr =>
    obtain rfl := Host.Outcome.next.inj h
    rw [reg15_setRegFlag]
    exact .inl (shrFlag_eq _)
  | shl x y =>
    obtain rfl := Host.Outcome.next.inj h
    rw [reg15_setRegFlag]
    exact .inr ⟨x, y, rfl, shlFlag_eq _⟩
  | drw x y n =>
    obtain rfl := Host.Outcome.next.inj h
    rcases withRange_spec s n.toNat ((s.setReg Config.flagReg 0).drawSprite x y n.toNat) with ⟨-, he⟩ | ⟨h0, hoob, -⟩
    · obtain ⟨hit, hreg⟩ := reg15_drawSprite (s.setReg Config.flagReg 0) x y n.toNat
      rw [he, hreg]
      exact .inl (flagOf_eq hit)
    · exact nomatch hc.noFault.symm.trans (rangeFault_of_oob h0 hoob)
  | _ => exact nomatch hw

/-- Settles O23: the frames say who may write register 15, `reg15_of_flagWriter` what a flag writer leaves there. -/
theorem onlySixInstructionsWriteTheFlag : Obligations.OnlySixInstructionsWriteTheFlag := by
  unfold Obligations.OnlySixInstructionsWriteTheFlag
  intro s t h
  refine ⟨fun hne => ?_, fun i hi hw hf hshl => ?_, fun x y hi => ?_⟩
  · cases step_cases h with
    | halted | faulted | unknown => exact absurd rfl hne
    | ran hi hx hc => exact ⟨_, hi, writes_reg15 (by_contra fun hr => hne (hc.frame.regs 15 hr))⟩
  · obtain ⟨u, hx, hc, rfl⟩ := ran_of_fetches hi h hf
    rcases reg15_of_flagWriter hw hx hc with hbit | ⟨x, y, rfl, -⟩
    · exact hbit
    · exact absurd rfl (hshl x y)
  · rw [step_of_fetches hi] at h
    obtain rfl := Host.Outcome.next.inj h
    rw [reg_endStep, reg15_setRegFlag]
    exact shlFlag_eq _

end Sys2Proof.Machine
end

section
/-! SUPPORT. Two states that differ in the key latch and in the stack entries alone (R27, R30): every operation that reads
neither commutes with changing them, and so does every step that fetches no instruction reading them. -/

namespace Sys2Proof.Machine

/-- `s` with its key latch and its stack entries changed, `sp` kept. -/
def State.recast (keys : BitVec 16 → BitVec 16) (stack : Vector Word 16 → Vector Word 16) (s : State) : State :=
  { s with keys := keys s.keys, stack := stack s.stack }

variable (κ : BitVec 16 → BitVec 16) (σ : Vector Word 16 → Vector Word 16) {s t : State} {i : Instr}

theorem withRange_recast (s : State) {n : Nat} {body body' : State} (hb : body' = body.recast κ σ) :
    (s.recast κ σ).withRange n body' = (s.withRange n body).recast κ σ := by
  rw [hb, State.withRange, State.withRange, apply_ite (State.recast κ σ)]
  rfl

theorem withKey_recast (s : State) {key : Byte} {body body' : State} (hb : body' = body.recast κ σ) :
    (s.recast κ σ).withKey key body' = (s.withKey key body).recast κ σ := by
  rw [hb, State.withKey, State.withKey, apply_ite (State.recast κ σ)]
  rfl

/-- `CALL` and `RET` read the stack, not the latch. -/
theorem callTo_recast (s : State) (w : Word) : (s.recast κ id).callTo w = (s.callTo w).recast κ id := by
  rw [State.callTo, State.callTo, apply_dite (State.recast κ id)]
  rfl

theorem returnFromCall_recast (s : State) : (s.recast κ id).returnFromCall = s.returnFromCall.recast κ id := by
  rw [State.returnFromCall, State.returnFromCall, apply_dite (State.recast κ id)]
  rfl

theorem endStep_recast (s : State) : (s.recast κ σ).endStep = s.endStep.recast κ σ := by
  rw [State.endStep, State.endStep, apply_ite (State.recast κ σ)]
  rfl

variable {κ σ}

/-- The two instructions that read or write the stack. -/
def usesStack : Instr → Bool
  | .call _ | .ret _ => true
  | _ => false

/-- The three instructions that read the key latch (R30). -/
def readsKeys : Instr → Bool
  | .skp _ | .sknp _ | .ldVxK _ => true
  | _ => false

theorem exec_recast (s : State) (hk : readsKeys i = true → κ = id) (hs : usesStack i = true → σ = id) :
    ∃ t, exec i s = .next t ∧ exec i (s.recast κ σ) = .next (t.recast κ σ) := by
  cases i with
  | ret =>
    obtain rfl := hs rfl
    exact ⟨_, rfl, congrArg Host.Outcome.next (returnFromCall_recast κ s)⟩
  | call =>
    obtain rfl := hs rfl
    exact ⟨_, rfl, congrArg Host.Outcome.next (callTo_recast κ s _)⟩
  | skp | sknp =>
    obtain rfl := hk rfl
    exact ⟨_, rfl, congrArg Host.Outcome.next (withKey_recast id σ s rfl)⟩
  | ldVxK =>
    obtain rfl := hk rfl
    have h : (s.recast id σ).lowestKey = s.lowestKey := rfl
    simp only [exec, execLdVxK, h]
    cases s.lowestKey with
    | none => exact ⟨_, rfl, rfl⟩
    | some k => exact ⟨_, rfl, rfl⟩
  | drw | ldBVx | storeRegs | loadRegs => exact ⟨_, rfl, congrArg Host.Outcome.next (withRange_recast κ σ s rfl)⟩
  | _ => exact ⟨_, rfl, rfl⟩

theorem step_recast (s : State) (hk : ∀ i, Fetches s i → readsKeys i = true → κ = id)
    (hs : ∀ i, Fetches s i → usesStack i = true → σ = id) :
    ∃ t, step s = .next t ∧ step (s.recast κ σ) = .next (t.recast κ σ) := by
  rcases fetch_cases s with ⟨r, hf⟩ | ⟨hf, hp⟩ | ⟨i, hi⟩ | hu
  · exact ⟨_, step_of_halted hf, step_of_halted (s := s.recast κ σ) hf⟩
  · exact ⟨_, step_of_unfetchable hf hp, step_of_unfetchable (s := s.recast κ σ) hf hp⟩
  · obtain ⟨t, hx, hx'⟩ := exec_recast s.clearOutputs (hk i hi) (hs i hi)
    refine ⟨t.endStep, (step_of_fetches hi).trans (congrArg endResult hx), ?_⟩
    rw [← endStep_recast]
    exact (step_of_fetches (s := s.recast κ σ) hi).trans (congrArg endResult hx')
  · refine ⟨_, step_of_fetchesUnknown hu, ?_⟩
    rw [← endStep_recast]
    exact step_of_fetchesUnknown (s := s.recast κ σ) hu

/-! ### The key latch -/

theorem keys_of_step (h : step s = .next t) : t.keys = s.keys := by
  cases step_cases h with
  | halted | faulted | unknown => rfl
  | ran _ _ hc => exact hc.keys

/-- Settles O27: no step writes the latch, and `step_recast` with the stack kept says who can read it. -/
theorem keysReachOnlyThreeInstructions : Obligations.KeysReachOnlyThreeInstructions := by
  unfold Obligations.KeysReachOnlyThreeInstructions
  refine ⟨fun s t h => keys_of_step h, fun s k hskp hsknp hwait => ?_, fun c k => rfl, fun c => ⟨_, rfl, rfl⟩⟩
  refine step_recast (κ := fun _ => k) (σ := id) s (fun i hi hr => ?_) fun _ _ _ => rfl
  cases i with
  | skp x => exact absurd hi (hskp x)
  | sknp x => exact absurd hi (hsknp x)
  | ldVxK x => exact absurd hi (hwait x)
  | _ => exact nomatch hr

/-! ### Dead stack entries -/

/-- `u` differs from `t` at most in the stack entries at or above `sp`. -/
def SameBelowSp (t u : State) : Prop :=
  u = { t with stack := u.stack } ∧ ∀ k, (h : k < 16) → k < t.sp.val → u.stack[k] = t.stack[k]

theorem sameBelowSp_endStep {t u : State} (h : SameBelowSp t u) : SameBelowSp t.endStep u.endStep := by
  obtain ⟨hu, hlive⟩ := h
  have hf : u.fault = t.fault := congrArg (·.fault) hu
  cases ht : t.fault with
  | none =>
    rw [endStep_of_none t ht, endStep_of_none u (hf.trans ht), hu]
    exact ⟨rfl, hlive⟩
  | some r =>
    rw [endStep_of_some t ht, endStep_of_some u (hf.trans ht)]
    exact ⟨hu, hlive⟩

section
variable {stack' : Vector Word 16} (hlive : ∀ k, (h : k < 16) → k < s.sp.val → stack'[k] = s.stack[k])
include hlive

/-- `CALL` writes the entry at `sp` before it counts as live. -/
theorem sameBelowSp_callTo (w : Word) : SameBelowSp (s.callTo w) (({ s with stack := stack' } : State).callTo w) := by
  rcases callTo_spec s w with ⟨hlt, h⟩ | ⟨heq, h⟩
  · have h' : ({ s with stack := stack' } : State).callTo w = _ := dif_pos hlt
    rw [h, h']
    refine ⟨rfl, fun k hk hlt' => ?_⟩
    simp only [Vector.getElem_set]
    split
    · rfl
    · have hlt : k < s.sp.val + 1 := hlt'
      exact hlive k hk (by omega)
  · have h' : ({ s with stack := stack' } : State).callTo w = _ := dif_neg (by omega : ¬ s.sp.val < 16)
    rw [h, h']
    exact ⟨rfl, hlive⟩

/-- `RET` reads the entry below `sp`, which is live. -/
theorem sameBelowSp_returnFromCall :
    SameBelowSp s.returnFromCall ({ s with stack := stack' } : State).returnFromCall := by
  rcases returnFromCall_spec s with ⟨hpos, h⟩ | ⟨heq, h⟩
  · have h' : ({ s with stack := stack' } : State).returnFromCall = _ := dif_pos hpos
    rw [h, h', hlive (s.sp.val - 1) (by omega) (by omega)]
    exact ⟨rfl, fun k hk hlt => hlive k hk (Nat.lt_of_lt_of_le hlt (Nat.sub_le _ _))⟩
  · have h' : ({ s with stack := stack' } : State).returnFromCall = _ := dif_neg (by omega : ¬ 0 < s.sp.val)
    rw [h, h']
    exact ⟨rfl, hlive⟩

/-- Two states that differ in dead entries alone step to two such states. -/
theorem step_sameBelowSp : ∃ t u, step s = .next t ∧ step { s with stack := stack' } = .next u ∧ SameBelowSp t u := by
  by_cases huse : ∃ i, Fetches s i ∧ usesStack i = true
  · obtain ⟨i, hi, huse⟩ := huse
    have hi' : Fetches { s with stack := stack' } i := hi
    cases i with
    | call nnn =>
      exact ⟨_, _, step_of_fetches hi, step_of_fetches hi',
        sameBelowSp_endStep (sameBelowSp_callTo (s := s.clearOutputs) hlive _)⟩
    | ret z =>
      exact ⟨_, _, step_of_fetches hi, step_of_fetches hi',
        sameBelowSp_endStep (sameBelowSp_returnFromCall (s := s.clearOutputs) hlive)⟩
    | _ => exact nomatch huse
  · have hno : ∀ i, Fetches s i → usesStack i = true → (fun _ => stack') = id :=
      fun i hi hu => absurd ⟨i, hi, hu⟩ huse
    obtain ⟨t, ht, hu⟩ := step_recast (κ := id) s (fun _ _ _ => rfl) hno
    refine ⟨t, _, ht, hu, rfl, ?_⟩
    rcases step_stack_cases ht with ⟨nnn, hi, -⟩ | ⟨z, hi, -⟩ | ⟨hsp, hst⟩
    · exact absurd ⟨_, hi, rfl⟩ huse
    · exact absurd ⟨_, hi, rfl⟩ huse
    · rw [hsp, hst]
      exact hlive

end

/-- Settles O29 (`step_sameBelowSp`). -/
theorem deadStackEntriesAreUnobservable : Obligations.DeadStackEntriesAreUnobservable := by
  unfold Obligations.DeadStackEntriesAreUnobservable
  exact fun s stack' hlive => step_sameBelowSp hlive

end Sys2Proof.Machine
end

section
/-! SUPPORT. The timers and the pulse over any number of ticks (R28, R29, R231). -/

namespace Sys2Proof.Machine

theorem iterate_tick_dt (s : State) (n : Nat) : ((State.tick^[n]) s).dt.toNat = s.dt.toNat - n := by
  induction n with
  | zero => rfl
  | succ n ih => rw [Function.iterate_succ_apply', tick_dt, countDown_toNat, ih, Nat.sub_sub]

theorem iterate_tick_st (s : State) (n : Nat) : ((State.tick^[n]) s).st.toNat = s.st.toNat - n := by
  induction n with
  | zero => rfl
  | succ n ih => rw [Function.iterate_succ_apply', tick_st, countDown_toNat, ih, Nat.sub_sub]

theorem tick_beep_iff (s : State) : s.tick.beep = true ↔ s.st.toNat = 1 := by
  rw [tick_beep, decide_eq_true_iff, ← BitVec.toNat_inj]
  rfl

/-- Settles O60: the pulse of tick `n + 1` comes when ST reads 1 after `n` ticks. -/
theorem timersRunDownAndBeepOnce : Obligations.TimersRunDownAndBeepOnce := by
  unfold Obligations.TimersRunDownAndBeepOnce
  intro s n
  refine ⟨iterate_tick_dt s n, iterate_tick_st s n, ?_⟩
  rw [Function.iterate_succ_apply', tick_beep_iff, iterate_tick_st]
  omega

end Sys2Proof.Machine
end

section
/-! SUPPORT. What the load port and the loader take, write and leave alone (R35, R74, R281). -/

namespace Sys2Proof.Machine

theorem loadByte_of_open {c : Console} {a : BitVec 12} (ho : c.loadOpen = true) (ha : 0x200 ≤ a.toNat) (b : Byte) :
    c.apply (.load a b) = some { c with core := c.core.storeBytes a.toNat [b] } := if_pos ⟨ho, ha⟩

theorem loadByte_refused {c : Console} {a : BitVec 12} (h : c.loadOpen = false ∨ a.toNat < 0x200) (b : Byte) :
    c.apply (.load a b) = none := by
  refine if_neg fun ⟨ho, ha⟩ => ?_
  rcases h with h | h
  · exact nomatch h.symm.trans ho
  · exact Nat.not_lt.2 ha h

/-- The first step closes the load port (R281). -/
theorem loadOpen_after_step {c d : Console} (h : c.apply .step = some d) : d.loadOpen = false := by
  rcases apply_cases h with ⟨hm, -⟩ | ⟨a, b, hm, -⟩ | ⟨k, hm, -⟩ | ⟨t, -, -, rfl⟩
  · exact nomatch hm
  · exact nomatch hm
  · exact nomatch hm
  · rfl

/-- Byte `k` of a range store is at `a + k`. -/
theorem readByte_storeBytes_inside (s : State) (a : Nat) (us : List Byte) {k : Nat} (hk : k < us.length) :
    (s.storeBytes a us).readByte (a + k) = us[k] := by
  rw [readByte_storeBytes, if_pos (by omega), Nat.add_sub_cancel_left, List.getD_eq_getElem us 0 hk]

theorem readByte_storeBytes_outside (s : State) {a p : Nat} {us : List Byte} (hp : p < a ∨ a + us.length ≤ p) :
    (s.storeBytes a us).readByte p = s.readByte p := by
  rw [readByte_storeBytes, if_neg (by omega)]

/-- Settles O18: the port and the loader are range stores (`readByte_storeBytes_inside`, `readByte_storeBytes_outside`). -/
theorem loadPortWritesOnlyTheProgramArea : Obligations.LoadPortWritesOnlyTheProgramArea := by
  unfold Obligations.LoadPortWritesOnlyTheProgramArea
  intro c a b
  refine ⟨fun ho ha => ⟨_, loadByte_of_open ho ha b, ho, ?_, fun p hp => ?_, rfl⟩, fun h => loadByte_refused h b,
    fun d h => loadOpen_after_step h,
    fun s image hlen => ⟨_, loadImage_of_fits s hlen, fun k hk => ?_, fun p hp => ?_, rfl⟩,
    fun s image hlen => loadImage_of_long s hlen⟩
  · exact readByte_storeBytes_inside c.core a.toNat [b] Nat.zero_lt_one
  · exact readByte_storeBytes_outside c.core (Nat.lt_or_gt_of_ne hp)
  · exact readByte_storeBytes_inside s 0x200 image hk
  · exact readByte_storeBytes_outside s hp

end Sys2Proof.Machine
end

section
/-! SUPPORT. Who stores to memory and where, what a range beyond 0xFFF does, and a store over the next instruction (R63,
R64, R66, R71). -/

namespace Sys2Proof.Machine

variable {s t : State}

/-- Settles O22: a byte that changed is one the frame of the completed instruction lets it write, and no other way of a
step touches memory. -/
theorem onlyTwoInstructionsStore : Obligations.OnlyTwoInstructionsStore := by
  unfold Obligations.OnlyTwoInstructionsStore
  intro s t a h hne
  cases step_cases h with
  | halted | faulted | unknown => exact absurd rfl hne
  | @ran i u hi hx hc =>
    have hw : (writes s.clearOutputs i).mem a := by_contra fun ha => hne (hc.frame.mem a ha)
    cases i with
    | ldBVx x => exact .inl ⟨x, hi, hw⟩
    | storeRegs x =>
      obtain ⟨hlo, hhi⟩ := hw
      exact .inr ⟨x, hi, hlo, Nat.le_of_lt_succ hhi⟩
    | _ => exact hw.elim

/-! ### A range beyond memory -/

/-- A checked access that ends above 0xFFF is the fault entry of `MEM_OOB`, whatever its body (R63, R251). -/
theorem faulted_withRange {n : Nat} {body : State} (h0 : 0 < n) (h : 0x1000 < s.i.toNat + n) :
    Faulted .memOob (BitVec.ofNat 16 (max s.i.toNat 0x1000)) s (s.withRange n body) := by
  rw [withRange_of_oob s h0 h, ← lowestOob_toNat, BitVec.ofNat_toNat, BitVec.setWidth_eq]
  rfl

/-- Settles O46: each of the four is one checked access (`faulted_withRange`) of 3, `x + 1` or `n` bytes. -/
theorem rangesBeyondMemoryFault : Obligations.RangesBeyondMemoryFault := by
  unfold Obligations.RangesBeyondMemoryFault
  intro x y n s
  refine ⟨fun h => ⟨_, rfl, faulted_withRange (n := 3) (by decide) (Nat.succ_lt_succ h)⟩,
    fun h => ⟨_, rfl, faulted_withRange (Nat.succ_pos x.val) (Nat.succ_lt_succ h)⟩,
    fun h => ⟨_, rfl, faulted_withRange (Nat.succ_pos x.val) (Nat.succ_lt_succ h)⟩,
    fun h0 h => ⟨_, rfl, faulted_withRange h0 (by omega)⟩⟩

/-! ### A store over the next instruction -/

/-- Byte `q` of a stored register range is `V[q]` (R194). -/
theorem readByte_storeBytes_firstRegs (s : State) (a : Nat) {n : Nat} (hn : n ≤ 16) (q : RegIx) (hq : q.val < n) :
    (s.storeBytes a (s.firstRegs n)).readByte (a + q.val) = s.reg q := by
  have hlen : (s.firstRegs n).length = n := length_firstRegs s hn
  rw [readByte_storeBytes, if_pos (by omega), Nat.add_sub_cancel_left, getD_firstRegs s q hq]

/-- The step of `LD [I],Vx` inside memory goes on to the next instruction with `V[0]` to `V[x]` at `I` (R125, R194). -/
theorem step_of_storeRegs {x : RegIx} (h : Fetches s (.storeRegs x)) (hx : s.dataAddr x.val ≤ 0xFFF) :
    ∃ t, step s = .next t ∧ t.pc = s.pc + 2 ∧ ∀ q : RegIx, q ≤ x → t.readByte (s.dataAddr q.val) = s.reg q := by
  have hfits : s.clearOutputs.i.toNat + (x.val + 1) ≤ 0x1000 := Nat.succ_le_succ hx
  have hstep : step s = .next
      (s.clearOutputs.storeBytes (s.clearOutputs.dataAddr 0)
        (s.clearOutputs.firstRegs (x.val + 1))).advance.tick.nextDraw := by
    rw [step_of_fetches h, exec, execStoreRegs, withRange_of_fits _ (.inr hfits), endResult, endStep_of_none]
    exact h.1
  exact ⟨_, hstep, rfl, fun q hq =>
    readByte_storeBytes_firstRegs s.clearOutputs s.i.toNat x.isLt q (Nat.lt_succ_of_le hq)⟩

theorem wordAt_toNat (s : State) :
    (wordAt s).toNat = 256 * (s.readByte s.pc.toNat).toNat + (s.readByte (s.pc.toNat + 1)).toNat := by
  rw [wordAt, wordOfBytes_toNat, Nat.mul_comm]

/-- Settles O48: `pc` lands on `I`, where the first two stored bytes are `V[0]` and `V[1]` (`step_of_storeRegs`). -/
theorem storedBytesAreFetchedNext : Obligations.StoredBytesAreFetchedNext := by
  unfold Obligations.StoredBytesAreFetchedNext
  intro x s h hi hx1 hx
  obtain ⟨t, ht, hpc, hmem⟩ := step_of_storeRegs h hx
  have hhi : t.readByte s.i.toNat = s.reg 0 := hmem 0 (Nat.zero_le _)
  have hlo : t.readByte (s.i.toNat + 1) = s.reg 1 := hmem 1 hx1
  rw [← hi] at hpc
  exact ⟨t, ht, hpc, by rw [wordAt_toNat, hpc, hhi, hlo]⟩

end Sys2Proof.Machine
end

section
/-! SUPPORT. The word of each encoding format as a number (R91, R92, R95): the row's base, and the operands in their
places. -/

namespace Sys2Proof

variable {f k : BitVec 4} {kk : Byte} {base : Nat} (x y : RegIx) (n : BitVec 4) (b : Byte) (nnn : BitVec 12)

theorem word_nnn (h : f.toNat * 4096 = base) : (packNNN f nnn).toNat = base + nnn.toNat := by
  rw [packNNN_toNat, h]

theorem word_xkk (h : f.toNat * 4096 = base) : (packXKK f (regBits x) b).toNat = base + 256 * x.val + b.toNat := by
  rw [packXKK_toNat, regBits_toNat, h, Nat.mul_comm x.val]

theorem word_xyn (h : f.toNat * 4096 = base) :
    (packXYN f (regBits x) (regBits y) n).toNat = base + 256 * x.val + 16 * y.val + n.toNat := by
  rw [packXYN_toNat, regBits_toNat, regBits_toNat, h, Nat.mul_comm x.val, Nat.mul_comm y.val]

/-- Format XSS: the low byte selects, so it belongs to the base. -/
theorem word_xss (h : f.toNat * 4096 + kk.toNat = base) :
    (packXKK f (regBits x) kk).toNat = base + 256 * x.val := by
  rw [word_xkk x kk rfl, ← h, Nat.add_right_comm]

/-- Format XYS: the low four bits select, so they belong to the base. -/
theorem word_xys (h : f.toNat * 4096 + k.toNat = base) :
    (packXYN f (regBits x) (regBits y) k).toNat = base + 256 * x.val + 16 * y.val := by
  rw [word_xyn x y k rfl, ← h, Nat.add_right_comm _ k.toNat, Nat.add_right_comm _ k.toNat]

/-- The ignored bits 11..8 of `CLS` and `RET` stand above the selecting byte (R96). -/
theorem word_fam0 (z : BitVec 4) : (packXKK 0x0 z b).toNat = 256 * z.toNat + b.toNat := by
  rw [packXKK_toNat, Nat.mul_comm z.toNat]
  exact congrArg (· + b.toNat) (Nat.zero_add _)

/-- Settles O1: each field as a number, and the two overlaps from them. -/
theorem fieldsAreTheStatedBits : Obligations.FieldsAreTheStatedBits := by
  unfold Obligations.FieldsAreTheStatedBits
  intro w
  refine ⟨famOf_toNat w, xOf_val w, yOf_val w, nOf_toNat w, kkOf_toNat w, nnnOf_toNat w, ?_, ?_⟩
  · rw [kkOf_toNat, yOf_val, nOf_toNat]
    omega
  · rw [nnnOf_toNat, xOf_val, yOf_val, nOf_toNat]
    omega

/-- Settles O2: each row is the word of its format. -/
theorem encodingsFollowTheOpcodeMap : Obligations.EncodingsFollowTheOpcodeMap := by
  unfold Obligations.EncodingsFollowTheOpcodeMap
  intro x y n z kk nnn
  exact ⟨(word_nnn nnn rfl).trans (Nat.zero_add _), word_fam0 _ z, word_fam0 _ z,
    word_nnn nnn rfl, word_nnn nnn rfl, word_xkk x kk rfl, word_xkk x kk rfl, word_xyn x y z rfl,
    word_xkk x kk rfl, word_xkk x kk rfl,
    word_xys x y rfl, word_xys x y rfl, word_xys x y rfl, word_xys x y rfl, word_xys x y rfl,
    word_xys x y rfl, word_xys x y rfl, word_xys x y rfl, word_xys x y rfl,
    word_xyn x y z rfl, word_nnn nnn rfl, word_nnn nnn rfl, word_xkk x kk rfl, word_xyn x y n rfl,
    word_xss x rfl, word_xss x rfl, word_xss x rfl, word_xss x rfl, word_xss x rfl, word_xss x rfl,
    word_xss x rfl, word_xss x rfl, word_xss x rfl, word_xss x rfl, word_xss x rfl⟩

end Sys2Proof
end

section
/-! SUPPORT. Decoding and encoding undo each other (R64, R95, R102). -/

namespace Sys2Proof

variable {w : Word} {i : Instr}

/-! ### From the instruction -/

/-- An address of `SYS` is well-formed when its low byte selects neither `CLS` nor `RET` (R95, R97). -/
theorem wf_sys_iff (nnn : BitVec 12) :
    (Instr.sys nnn).wf = true ↔ nnn.extractLsb' 0 8 ≠ 0xE0#8 ∧ nnn.extractLsb' 0 8 ≠ 0xEE#8 := by
  simp [Instr.wf]

theorem decode_encode (h : i.wf = true) : decode (encode i) = .instr i := by
  cases i with
  | sys nnn =>
    obtain ⟨hcls, hret⟩ := (wf_sys_iff nnn).1 h
    simp [encode, decode, decode0, hcls, hret]
  | _ => simp [encode, decode, decode0, decode8, decodeE, decodeF]

/-- Settles O3: the word decodes to the instruction (`decode_encode`), and the two bytes are the halves of the word. -/
theorem decodeOfEncodeIsTheInstruction : Obligations.DecodeOfEncodeIsTheInstruction := by
  unfold Obligations.DecodeOfEncodeIsTheInstruction
  intro i h
  refine ⟨decode_encode h, fun rest => ?_⟩
  simp [encodeBytes, decodeBytes, decode_encode h]

/-- Settles O6: the decoder run on each word. -/
theorem sampleWordsDecode : Obligations.SampleWordsDecode := by
  unfold Obligations.SampleWordsDecode
  decide

/-! ### From the word -/

/-- What decoding `w` to `d` must keep: an instruction is well-formed and has the word `w`. -/
def EncodesBack (w : Word) : Decoded → Prop
  | .instr i => i.wf = true ∧ encode i = w
  | .reject _ => True

theorem nnn_back {f : BitVec 4} (h : famOf w = f) : packNNN f (nnnOf w) = w := by
  rw [← h, packNNN_fields]

theorem xkk_back {f : BitVec 4} (h : famOf w = f) : packXKK f (regBits (xOf w)) (kkOf w) = w := by
  rw [← h, regBits_xOf, packXKK_fields]

theorem xyn_back {f : BitVec 4} (h : famOf w = f) :
    packXYN f (regBits (xOf w)) (regBits (yOf w)) (nOf w) = w := by
  rw [← h, packXYN_fields]

theorem xss_back {f : BitVec 4} {k : Byte} (h : famOf w = f) (hk : kkOf w = k) :
    packXKK f (regBits (xOf w)) k = w := by
  rw [← hk, xkk_back h]

theorem xys_back {f k : BitVec 4} (h : famOf w = f) (hk : nOf w = k) :
    packXYN f (regBits (xOf w)) (regBits (yOf w)) k = w := by
  rw [← hk, xyn_back h]

/-- `SYS` is reached only past the tests for `CLS` and `RET`, so its address is well-formed. -/
theorem wf_sys_nnnOf (hcls : kkOf w ≠ 0xE0#8) (hret : kkOf w ≠ 0xEE#8) : (Instr.sys (nnnOf w)).wf = true := by
  have hlow : (nnnOf w).extractLsb' 0 8 = kkOf w := by
    rw [← kkOf_packNNN (famOf w), packNNN_fields]
  rw [wf_sys_iff, hlow]
  exact ⟨hcls, hret⟩

/-! ### Dispatch on the family (R93): 0, 8, E and F select further, the other twelve are one instruction each -/

theorem decode_of_fam0 (h : famOf w = 0x0#4) : decode w = decode0 w := by simp [decode, h]

theorem decode_of_fam8 (h : famOf w = 0x8#4) : decode w = decode8 w := by simp [decode, h]

theorem decode_of_famE (h : famOf w = 0xE#4) : decode w = decodeE w := by simp [decode, h]

theorem decode_of_famF (h : famOf w = 0xF#4) : decode w = decodeF w := by simp [decode, h]

theorem decode_of_single (h0 : famOf w ≠ 0x0#4) (h8 : famOf w ≠ 0x8#4) (hE : famOf w ≠ 0xE#4)
    (hF : famOf w ≠ 0xF#4) : ∃ i, decode w = .instr i ∧ i.wf = true ∧ encode i = w := by
  unfold decode
  split
  case h_1 h => exact absurd h h0
  case h_9 h => exact absurd h h8
  case h_15 h => exact absurd h hE
  case h_16 =>
    simp only [imp_false] at *
    bv_omega
  case h_2 h | h_3 h | h_11 h | h_12 h => exact ⟨_, rfl, rfl, nnn_back h⟩
  case h_4 h | h_5 h | h_7 h | h_8 h | h_13 h => exact ⟨_, rfl, rfl, xkk_back h⟩
  case h_6 h | h_10 h | h_14 h => exact ⟨_, rfl, rfl, xyn_back h⟩

theorem decode0_encodesBack (h : famOf w = 0x0#4) : EncodesBack w (decode0 w) := by
  unfold decode0
  split
  next hk => exact ⟨rfl, xss_back h hk⟩
  next hcls =>
    split
    next hk => exact ⟨rfl, xss_back h hk⟩
    next hret => exact ⟨wf_sys_nnnOf hcls hret, nnn_back h⟩

theorem decode8_encodesBack (h : famOf w = 0x8#4) : EncodesBack w (decode8 w) := by
  unfold decode8
  split
  case h_10 => trivial
  all_goals exact ⟨rfl, xys_back h ‹_›⟩

theorem decodeE_encodesBack (h : famOf w = 0xE#4) : EncodesBack w (decodeE w) := by
  unfold decodeE
  split_ifs
  case neg => trivial
  all_goals exact ⟨rfl, xss_back h ‹_›⟩

theorem decodeF_encodesBack (h : famOf w = 0xF#4) : EncodesBack w (decodeF w) := by
  unfold decodeF
  split_ifs
  case neg => trivial
  all_goals exact ⟨rfl, xss_back h ‹_›⟩

theorem decode_encodesBack (w : Word) : EncodesBack w (decode w) := by
  by_cases h0 : famOf w = 0x0#4
  · exact decode_of_fam0 h0 ▸ decode0_encodesBack h0
  by_cases h8 : famOf w = 0x8#4
  · exact decode_of_fam8 h8 ▸ decode8_encodesBack h8
  by_cases hE : famOf w = 0xE#4
  · exact decode_of_famE hE ▸ decodeE_encodesBack hE
  by_cases hF : famOf w = 0xF#4
  · exact decode_of_famF hF ▸ decodeF_encodesBack hF
  obtain ⟨i, hd, hi⟩ := decode_of_single h0 h8 hE hF
  exact hd ▸ hi

theorem encode_of_decode (h : decode w = .instr i) : i.wf = true ∧ encode i = w :=
  (congrArg (EncodesBack w) h).mp (decode_encodesBack w)

/-- Settles O4: every branch of the decoder keeps the selecting bits and the operands (`decode_encodesBack`). -/
theorem encodeOfDecodeIsTheWord : Obligations.EncodeOfDecodeIsTheWord := by
  unfold Obligations.EncodeOfDecodeIsTheWord
  exact fun w i h => encode_of_decode h

end Sys2Proof
end

section
/-! SUPPORT. The words that are no instruction, and the words of `SYS` (R97, R98). -/

namespace Sys2Proof

variable {w : Word}

theorem kkOf_eq_iff (w : Word) (k : Byte) : kkOf w = k ↔ w.toNat % 256 = k.toNat := by
  rw [← BitVec.toNat_inj, kkOf_toNat]

/-! ### The words of SYS -/

theorem decode_sys_iff (w : Word) :
    (∃ nnn, decode w = .instr (.sys nnn)) ↔ famOf w = 0x0#4 ∧ kkOf w ≠ 0xE0#8 ∧ kkOf w ≠ 0xEE#8 := by
  constructor
  · rintro ⟨nnn, h⟩
    obtain ⟨hwf, rfl⟩ := encode_of_decode h
    exact ⟨famOf_packNNN _ nnn, by simpa [encode, wf_sys_iff] using hwf⟩
  · rintro ⟨hfam, hcls, hret⟩
    exact ⟨nnnOf w, by rw [decode_of_fam0 hfam, decode0, if_neg hcls, if_neg hret]⟩

/-! ### The words that are no instruction -/

theorem decode0_answers (w : Word) : ∃ i, decode0 w = .instr i := by
  unfold decode0
  split_ifs <;> exact ⟨_, rfl⟩

theorem decode8_rejects_iff (w : Word) :
    (∃ r, decode8 w = .reject r) ↔ w.toNat % 16 ∈ [0x8, 0x9, 0xA, 0xB, 0xC, 0xD, 0xF] := by
  rw [← nOf_toNat]
  unfold decode8
  split
  case h_10 =>
    refine iff_of_true ⟨_, rfl⟩ ?_
    simp only [imp_false, List.mem_cons, List.not_mem_nil, or_false] at *
    bv_omega
  all_goals exact iff_of_false (fun ⟨_, h⟩ => nomatch h) (by simp [*])

theorem decodeE_rejects_iff (w : Word) :
    (∃ r, decodeE w = .reject r) ↔ w.toNat % 256 ∉ [0x9E, 0xA1] := by
  simp only [decodeE, kkOf_eq_iff, BitVec.reduceToNat]
  split_ifs
  case neg => exact iff_of_true ⟨_, rfl⟩ (by simp [*])
  all_goals exact iff_of_false (fun ⟨_, h⟩ => nomatch h) (by simp [*])

theorem decodeF_rejects_iff (w : Word) :
    (∃ r, decodeF w = .reject r) ↔
      w.toNat % 256 ∉ [0x07, 0x0A, 0x15, 0x18, 0x1E, 0x29, 0x33, 0x55, 0x65] := by
  simp only [decodeF, kkOf_eq_iff, BitVec.reduceToNat]
  split_ifs
  case neg => exact iff_of_true ⟨_, rfl⟩ (by simp [*])
  all_goals exact iff_of_false (fun ⟨_, h⟩ => nomatch h) (by simp [*])

/-- R97's rows that decode to no instruction. -/
theorem decode_rejects_iff (w : Word) :
    (∃ r, decode w = .reject r) ↔
      (w.toNat / 4096 = 0x8 ∧ w.toNat % 16 ∈ [0x8, 0x9, 0xA, 0xB, 0xC, 0xD, 0xF]) ∨
      (w.toNat / 4096 = 0xE ∧ w.toNat % 256 ∉ [0x9E, 0xA1]) ∨
      (w.toNat / 4096 = 0xF ∧ w.toNat % 256 ∉ [0x07, 0x0A, 0x15, 0x18, 0x1E, 0x29, 0x33, 0x55, 0x65]) := by
  rw [← famOf_toNat]
  by_cases h8 : famOf w = 0x8#4
  · rw [decode_of_fam8 h8, decode8_rejects_iff, h8]
    simp
  by_cases hE : famOf w = 0xE#4
  · rw [decode_of_famE hE, decodeE_rejects_iff, hE]
    simp
  by_cases hF : famOf w = 0xF#4
  · rw [decode_of_famF hF, decodeF_rejects_iff, hF]
    simp
  have hanswers : ∃ i, decode w = .instr i := by
    by_cases h0 : famOf w = 0x0#4
    · exact decode_of_fam0 h0 ▸ decode0_answers w
    · obtain ⟨i, hi, -⟩ := decode_of_single h0 h8 hE hF
      exact ⟨i, hi⟩
  obtain ⟨i, hi⟩ := hanswers
  refine iff_of_false (fun ⟨_, h⟩ => nomatch hi.symm.trans h) ?_
  rintro (⟨h, -⟩ | ⟨h, -⟩ | ⟨h, -⟩)
  · exact h8 (BitVec.eq_of_toNat_eq h)
  · exact hE (BitVec.eq_of_toNat_eq h)
  · exact hF (BitVec.eq_of_toNat_eq h)

/-- Settles O5: R97's rows of families 8, E and F (`decode_rejects_iff`), and that of family 0 (`decode_sys_iff`). -/
theorem unknownWordsAreExactlyTheTable : Obligations.UnknownWordsAreExactlyTheTable := by
  unfold Obligations.UnknownWordsAreExactlyTheTable
  refine fun w => ⟨decode_rejects_iff w, ?_⟩
  rw [decode_sys_iff, ← BitVec.toNat_inj, famOf_toNat, Ne, kkOf_eq_iff, Ne, kkOf_eq_iff]
  simp

end Sys2Proof
end

section
/-! SUPPORT. One step, way by way (R120 to R130): it always answers; where `pc` is after it; what it reports. -/

namespace Sys2Proof.Machine

variable {s t u : State} {i : Instr}

/-! ### Execute, then tick -/

theorem step_of_exec (hi : Fetches s i) (hx : exec i s.clearOutputs = .next u) : step s = .next u.endStep :=
  (step_of_fetches hi).trans (congrArg endResult hx)

theorem countDown_eq (b : Byte) : countDown b = BitVec.ofNat 8 (b.toNat - 1) := by
  rw [← countDown_toNat, BitVec.ofNat_toNat, BitVec.setWidth_eq]

/-- The end of a step that did not fault, in numbers (R128, R230, R231). -/
theorem endStep_eq (h : s.fault = none) :
    s.endStep =
      { s with dt := BitVec.ofNat 8 (s.dt.toNat - 1), st := BitVec.ofNat 8 (s.st.toNat - 1),
               beep := decide (s.st.toNat = 1), draws := s.draws + 1 } := by
  have hbeep : decide (s.st = 1) = decide (s.st.toNat = 1) := decide_eq_decide.2 BitVec.toNat_inj.symm
  rw [endStep_of_none s h, State.nextDraw, State.tick, countDown_eq, countDown_eq, hbeep]

/-- Settles O11: a halted core, a failed fetch, an instruction and an unknown word each step on (`fetch_cases`). -/
theorem everyStateSteps : Obligations.EveryStateSteps := by
  unfold Obligations.EveryStateSteps
  intro s
  rcases fetch_cases s with ⟨r, hf⟩ | ⟨hf, hp⟩ | ⟨i, hi⟩ | hu
  · exact ⟨_, step_of_halted hf⟩
  · exact ⟨_, step_of_unfetchable hf hp⟩
  · obtain ⟨u, hx, -⟩ := exec_spec i s.clearOutputs
    exact ⟨_, step_of_exec hi hx⟩
  · exact ⟨_, step_of_fetchesUnknown hu⟩

/-- Settles O7: `exec` answers (`exec_spec`), and `endStep` is the tick or nothing. -/
theorem stepRunsTheDecodedInstruction : Obligations.StepRunsTheDecodedInstruction := by
  unfold Obligations.StepRunsTheDecodedInstruction
  intro s i hf hp hd
  obtain ⟨t, hx, -⟩ := exec_spec i s.clearOutputs
  have hstep : step s = .next t.endStep := step_of_exec ⟨hf, hp, hd⟩ hx
  refine ⟨t, hx, fun ht => ?_, fun ht => ?_⟩
  · rw [hstep, endStep_eq ht]
  · obtain ⟨r, hr⟩ := Option.ne_none_iff_exists'.1 ht
    rw [hstep, endStep_of_some t hr]

/-- Settles O8: the report and the advance, then the tick (`endStep_eq`). -/
theorem unknownWordIsReportedAndSteppedOver : Obligations.UnknownWordIsReportedAndSteppedOver := by
  unfold Obligations.UnknownWordIsReportedAndSteppedOver
  intro s hu
  have hf : (s.clearOutputs.unknownOpcode (wordAt s)).fault = none := hu.1
  rw [step_of_fetchesUnknown hu, endStep_eq hf]
  rfl

/-- Settles O9: the fault is raised on the state with cleared pulses, which `Faulted` clears too. -/
theorem fetchBeyondMemoryFaults : Obligations.FetchBeyondMemoryFaults := by
  unfold Obligations.FetchBeyondMemoryFaults
  intro s hf hp
  exact ⟨_, step_of_unfetchable hf hp, rfl⟩

/-- Settles O10: `clearOutputs` is all that a halted core does (`step_of_halted`). -/
theorem haltedCoreDoesNothing : Obligations.HaltedCoreDoesNothing := by
  unfold Obligations.HaltedCoreDoesNothing
  intro s r hr
  exact step_of_halted hr

/-! ### `pc` after a step (R125) -/

theorem pcAfter_clearOutputs : pcAfter s.clearOutputs i = pcAfter s i := by cases i <;> rfl

/-- With no fault due, the fetched instruction completes, and the tick follows (R125, R128). -/
theorem completes_of_noFaultDue (hi : Fetches s i) (hd : faultDue s = none) :
    ∃ u, Completes i s.clearOutputs u ∧ step s = .next u.endStep := by
  obtain ⟨u, hx, ⟨r, hr, -⟩ | hc⟩ := exec_spec i s.clearOutputs
  · rw [instrFault_clearOutputs, ← faultDue_of_fetches hi, hd] at hr
    exact nomatch hr
  · exact ⟨u, hc, step_of_exec hi hx⟩

/-- Settles O24: a completed instruction moves `pc` by its class, and the tick leaves `pc` alone. -/
theorem pcMovesByItsClass : Obligations.PcMovesByItsClass := by
  unfold Obligations.PcMovesByItsClass
  intro s i hi hd
  obtain ⟨u, hc, hstep⟩ := completes_of_noFaultDue hi hd
  have hf : u.fault = none := hc.fault.trans hi.1
  rw [endStep_of_none u hf] at hstep
  exact ⟨_, hstep, hf, hc.pc.trans pcAfter_clearOutputs⟩

/-! ### What a step reports (R126) -/

/-- A running core is at a word that is reported: of `SYS`, or of no instruction (R126). -/
def FetchesReported (s : State) : Prop := (∃ nnn, Fetches s (.sys nnn)) ∨ FetchesUnknown s

theorem FetchesReported.running (h : FetchesReported s) : s.fault = none := by
  obtain ⟨nnn, hi⟩ | hu := h
  · exact hi.1
  · exact hu.1

theorem FetchesReported.noFaultDue (h : FetchesReported s) : faultDue s = none := by
  obtain ⟨nnn, hi⟩ | ⟨-, hp, r, hd⟩ := h
  · exact faultDue_of_fetches hi
  · rw [faultDue, if_neg (Nat.not_lt.2 hp), hd]

/-- The word of a fetched `SYS` is its operand under family 0: the word that `SYS` reports (R140). -/
theorem wordAt_of_sys {nnn : BitVec 12} (h : Fetches s (.sys nnn)) : wordAt s = addrOf nnn := by
  obtain ⟨-, henc⟩ := encode_of_decode h.2.2
  refine henc.symm.trans (BitVec.eq_of_toNat_eq ?_)
  rw [encode, packNNN_toNat, addrOf, BitVec.toNat_setWidth_of_le (by decide)]
  simp

/-- What a completed instruction leaves of the report: `SYS` makes one, any other leaves it alone. -/
theorem report_cases (h : exec i s = .next t) (hc : Completes i s t) :
    (∃ nnn, i = .sys nnn ∧ t.unknown = some ⟨addrOf nnn, s.pc⟩) ∨
    ((∀ nnn, i ≠ .sys nnn) ∧ t.unknown = s.unknown) := by
  cases i with
  | sys nnn =>
    obtain rfl := Host.Outcome.next.inj h
    exact .inl ⟨nnn, rfl, rfl⟩
  | _ => exact .inr ⟨nofun, hc.frame.report rfl⟩

/-- A step reports the word and its address and does not fault, or it has nothing to report and reports nothing. -/
theorem step_report_cases (h : step s = .next t) :
    (FetchesReported s ∧ t.unknown = some ⟨wordAt s, s.pc⟩ ∧ t.fault = none) ∨
    (¬ FetchesReported s ∧ t.unknown = none) := by
  cases step_cases h with
  | halted hr => exact .inr ⟨fun hw => (nomatch hw.running.symm.trans hr), rfl⟩
  | faulted _ hr => exact .inr ⟨fun hw => (nomatch hw.noFaultDue.symm.trans hr), rfl⟩
  | ran hi hx hc =>
    obtain ⟨nnn, rfl, hrep⟩ | ⟨hne, hrep⟩ := report_cases hx hc
    · exact .inl ⟨.inl ⟨nnn, hi⟩, wordAt_of_sys hi ▸ hrep, hc.fault.trans hi.1⟩
    · refine .inr ⟨?_, hrep⟩
      rintro (⟨nnn, hsys⟩ | hu)
      · exact hne nnn (hi.unique hsys)
      · exact not_fetchesUnknown_of_fetches hi hu
  | unknown hu => exact .inl ⟨.inr hu, rfl, hu.1⟩

/-- Settles O26: the two cases of `step_report_cases`. -/
theorem reportsAreExactlyTheUnknownWords : Obligations.ReportsAreExactlyTheUnknownWords := by
  unfold Obligations.ReportsAreExactlyTheUnknownWords
  intro s t h
  obtain ⟨hw, hrep, hf⟩ | ⟨hw, hrep⟩ := step_report_cases h
  · refine ⟨fun u => ?_, fun _ => hf⟩
    rw [hrep, Option.some_inj, eq_comm]
    exact (and_iff_right hw).symm
  · exact ⟨fun u => iff_of_false (hrep ▸ nofun) fun hu => hw hu.1, fun hne => absurd hrep hne⟩

end Sys2Proof.Machine
end

section
/-! SUPPORT. Control transfer (R140 to R148): where each instruction goes, what it leaves of the stack, and a call with its
return. -/

namespace Sys2Proof.Machine

variable {s t : State} {i : Instr}

/-! ### Either way of `exec_spec` -/

/-- With no fault due, an instruction moves `pc` by its class and writes inside its frame (R125). -/
theorem exec_of_noFault (h : instrFault s i = none) :
    ∃ t, exec i s = .next t ∧ t.pc = pcAfter s i ∧ Frame (writes s i) s t := by
  obtain ⟨t, hx, ⟨r, hr, -⟩ | hc⟩ := exec_spec i s
  · exact nomatch h.symm.trans hr
  · exact ⟨t, hx, hc.pc, hc.frame⟩

/-- The fault that is due is the fault entry, and nothing else (R252). -/
theorem exec_of_fault {code : FaultCode} {info : Word} (h : instrFault s i = some ⟨code, info⟩) :
    ∃ t, exec i s = .next t ∧ Faulted code info s t := by
  obtain ⟨t, hx, ⟨r, hr, rfl⟩ | hc⟩ := exec_spec i s
  · obtain rfl := Option.some.inj (h.symm.trans hr)
    exact ⟨_, hx, rfl⟩
  · exact nomatch h.symm.trans hc.noFault

/-! ### Addresses -/

theorem addrOf_toNat (nnn : BitVec 12) : (addrOf nnn).toNat = nnn.toNat :=
  BitVec.toNat_setWidth_of_le (by decide)

theorem zext16_toNat (b : Byte) : (zext16 b).toNat = b.toNat :=
  BitVec.toNat_setWidth_of_le (by decide)

/-- A 12-bit address plus a byte stays below 65536 (R148). -/
theorem addrOf_add_zext16_toNat (nnn : BitVec 12) (b : Byte) :
    (addrOf nnn + zext16 b).toNat = nnn.toNat + b.toNat := by
  have hn := nnn.isLt
  have hb := b.isLt
  rw [BitVec.toNat_add, addrOf_toNat, zext16_toNat, Nat.mod_eq_of_lt (by omega)]

/-! ### SYS, the jumps and the skips -/

/-- Settles O31: the report is the operand under family 0. -/
theorem sysReportsAndAdvances : Obligations.SysReportsAndAdvances := by
  unfold Obligations.SysReportsAndAdvances
  intro nnn s
  exact ⟨_, rfl, ⟨_, rfl, addrOf_toNat nnn, rfl⟩, rfl, frame_unknownOpcode s _⟩

/-- Settles O33: a jump writes `pc` alone. -/
theorem jpGoesToItsAddress : Obligations.JpGoesToItsAddress := by
  unfold Obligations.JpGoesToItsAddress
  intro nnn s
  exact ⟨word_nnn nnn rfl, _, rfl, addrOf_toNat nnn, (Frame.refl s _).setPc _⟩

/-- Settles O36: a jump to a sum that does not wrap (`addrOf_add_zext16_toNat`). -/
theorem jpV0AddsRegisterZero : Obligations.JpV0AddsRegisterZero := by
  unfold Obligations.JpV0AddsRegisterZero
  intro nnn s
  exact ⟨_, rfl, addrOf_add_zext16_toNat nnn (s.reg 0), (Frame.refl s _).setPc _⟩

/-- Settles O35: the class of a skip is `pcAfter`, and its frame is everything (`exec_of_noFault`). -/
theorem skipsAddFourOrTwo : Obligations.SkipsAddFourOrTwo := by
  unfold Obligations.SkipsAddFourOrTwo
  intro x y kk z s
  simp only [BitVec.toNat_inj, ne_eq, ite_not]
  exact ⟨exec_of_noFault (i := .seByte x kk) rfl, exec_of_noFault (i := .sneByte x kk) rfl,
    exec_of_noFault (i := .seReg x y z) rfl, exec_of_noFault (i := .sneReg x y z) rfl⟩

/-! ### CALL and RET -/

/-- With room, `CALL` pushes `pc` and jumps (R143). -/
theorem exec_call_of_room (nnn : BitVec 12) (h : s.sp.val < 16) : exec (.call nnn) s = .next
    { s with stack := s.stack.set s.sp.val s.pc, sp := ⟨s.sp.val + 1, by omega⟩, pc := addrOf nnn } :=
  congrArg Host.Outcome.next (dif_pos h)

/-- With an entry in use, `RET` goes past the address it holds (R141). -/
theorem exec_ret_of_entry (z : BitVec 4) (h : 0 < s.sp.val) : exec (.ret z) s = .next
    { s with sp := ⟨s.sp.val - 1, by omega⟩, pc := s.stack[s.sp.val - 1]'(by omega) + 2 } :=
  congrArg Host.Outcome.next (dif_pos h)

/-- Settles O32: one entry is popped (`exec_ret_of_entry`), or the fault is due. -/
theorem retPopsAndAddsTwo : Obligations.RetPopsAndAddsTwo := by
  unfold Obligations.RetPopsAndAddsTwo
  refine fun z s => ⟨fun h => ?_, fun h => exec_of_fault (if_pos h)⟩
  exact ⟨_, exec_ret_of_entry z h, rfl, rfl, rfl, { Frame.refl s _ with stack := nofun }⟩

/-- Settles O34: one entry is pushed (`exec_call_of_room`), or the fault is due. -/
theorem callPushesItsOwnAddress : Obligations.CallPushesItsOwnAddress := by
  unfold Obligations.CallPushesItsOwnAddress
  refine fun nnn s => ⟨fun h => ?_, fun h => exec_of_fault (if_pos h)⟩
  exact ⟨_, exec_call_of_room nnn h, Vector.getElem_set_self h,
    fun k hk hne => Vector.getElem_set_ne h hk hne.symm, rfl, addrOf_toNat nnn,
    { Frame.refl s _ with stack := nofun }⟩

/-! ### A call and its return -/

/-- On a stack that is `s`'s with `s.pc` pushed, `RET` goes past that call and restores `sp` (R141, R143). -/
theorem exec_ret_of_pushed (z : BitVec 4) (h : s.sp.val < 16) (hsp : t.sp.val = s.sp.val + 1)
    (hst : t.stack = s.stack.set s.sp.val s.pc) : exec (.ret z) t = .next { t with sp := s.sp, pc := s.pc + 2 } := by
  have hpos : 0 < t.sp.val := hsp ▸ Nat.succ_pos _
  simp [exec_ret_of_entry z hpos, hsp, hst]

/-- A fetched instruction that does not fault is followed by the tick (R128). -/
theorem step_of_exec_noFault (hi : Fetches s i) (hx : exec i s.clearOutputs = .next t) (ht : t.fault = none) :
    step s = .next t.tick.nextDraw := by
  rw [step_of_exec hi hx, endStep_of_none t ht]

/-- Settles O49: the call's step leaves its own address on top of the stack, and the return at the target takes it from
there (`exec_ret_of_pushed`); the tick between them touches neither. -/
theorem callThenReturnComesBack : Obligations.CallThenReturnComesBack := by
  unfold Obligations.CallThenReturnComesBack
  intro s nnn z hcall hsp hn hd
  have hcalled := step_of_exec_noFault hcall (exec_call_of_room (s := s.clearOutputs) nnn hsp) hcall.1
  have hpc : (addrOf nnn).toNat = nnn.toNat := addrOf_toNat nnn
  refine ⟨_, _, hcalled, step_of_exec_noFault (i := .ret z) ?atTarget (exec_ret_of_pushed z hsp rfl rfl) hcall.1,
    hpc, rfl, rfl, hcall.1, ?entries, fun _ => rfl, fun _ => rfl⟩
  case atTarget =>
    rw [← hpc] at hn hd
    exact ⟨hcall.1, hn, hd⟩
  case entries =>
    intro k hk
    simp [Vector.getElem_set, eq_comm]

end Sys2Proof.Machine
end

section
/-! SUPPORT. Register moves, arithmetic, logic, shifts and the random byte (R160 to R171): the numbers the flags hold,
and what the two forms of a register write, with a flag and without, leave behind. -/

namespace Sys2Proof.Machine

variable {s : State} {i : Instr} {x : RegIx} {b f : Byte} {m n : Nat}

/-! ### The flags and the difference, as numbers -/

theorem flagOf_decide_toNat (p : Prop) [Decidable p] : (flagOf (decide p)).toNat = if p then 1 else 0 := by
  by_cases hp : p <;> simp [flagOf, hp]

theorem carryFlag_toNat (a b : Byte) : (carryFlag a b).toNat = if a.toNat + b.toNat > 255 then 1 else 0 :=
  flagOf_decide_toNat _

theorem greaterFlag_toNat (a b : Byte) : (greaterFlag a b).toNat = if a.toNat > b.toNat then 1 else 0 :=
  flagOf_decide_toNat _

theorem shrFlag_toNat (a : Byte) : (shrFlag a).toNat = a.toNat % 2 :=
  (BitVec.toNat_and a 0x01).trans (Nat.and_one_is_mod a.toNat)

/-- The mask keeps bit 7, which is set from 128 on, in its place (R170, decision D6). -/
theorem shlFlag_toNat (a : Byte) : (shlFlag a).toNat = if 128 ≤ a.toNat then 128 else 0 := by
  have hbit : a.getLsbD 7 = decide (128 ≤ a.toNat) := BitVec.msb_eq_decide a
  rw [shlFlag, show (0x80 : Byte) = BitVec.twoPow 8 7 from rfl, BitVec.and_twoPow, hbit]
  by_cases h : 128 ≤ a.toNat <;> simp [h]

/-- A difference of bytes wraps by 256 when the subtrahend is the greater (R167, R169). -/
theorem byte_sub_toNat (a b : Byte) : (a - b).toNat =
    if b.toNat ≤ a.toNat then a.toNat - b.toNat else a.toNat + 256 - b.toNat := by
  have ha := a.isLt
  rw [BitVec.toNat_sub]
  split <;> omega

/-! ### The two forms of a register write -/

theorem reg_setReg_self (s : State) (x : RegIx) (b : Byte) : (s.setReg x b).advance.reg x = b := by
  rw [reg_advance, reg_setReg, if_pos rfl]

/-- The result stays in a destination that is not register 15 (R23). -/
theorem reg_setRegFlag_of_ne (hx : x ≠ 15) (s : State) (b f : Byte) : (s.setRegFlag x b f).advance.reg x = b := by
  rw [reg_advance, reg_setRegFlag, if_neg hx, if_pos rfl]

/-- What an instruction that writes a result and then a flag leaves behind, both read as numbers (R23, R173). -/
theorem exec_of_setRegFlag (h : exec i s = .next (s.setRegFlag x b f).advance) (hb : b.toNat = n) (hf : f.toNat = m) :
    ∃ t, exec i s = .next t ∧ (x ≠ 15 → (t.reg x).toNat = n) ∧ (t.reg 15).toNat = m ∧
      t.pc = s.pc + 2 ∧ Frame { regs := fun r => r = x ∨ r = 15 } s t := by
  refine ⟨_, h, fun hx => ?_, ?_, rfl, (frame_setRegFlag s x b f).setPc _⟩
  · rw [reg_setRegFlag_of_ne hx, hb]
  · rw [reg15_setRegFlag, hf]

/-! ### Without a flag -/

/-- Settles O37: each is one `setReg`, and the operation is read off the value written (`reg_setReg_self`). -/
theorem plainRegisterWrites : Obligations.PlainRegisterWrites := by
  unfold Obligations.PlainRegisterWrites
  intro x y kk s
  have hframe (b : Byte) : Frame { regs := (· = x) } s (s.setReg x b).advance := (frame_setReg s x b).setPc _
  refine ⟨⟨_, rfl, reg_setReg_self s x kk, rfl, hframe _⟩, ⟨_, rfl, ?add, rfl, hframe _⟩,
    ⟨_, rfl, reg_setReg_self s x _, rfl, hframe _⟩, ⟨_, rfl, fun b => ?or, rfl, hframe _⟩,
    ⟨_, rfl, fun b => ?and, rfl, hframe _⟩, ⟨_, rfl, fun b => ?xor, rfl, hframe _⟩⟩
  case add => rw [reg_setReg_self, BitVec.toNat_add]
  case or => rw [reg_setReg_self, BitVec.getLsbD_or]
  case and => rw [reg_setReg_self, BitVec.getLsbD_and]
  case xor => rw [reg_setReg_self, BitVec.getLsbD_xor]

/-- Settles O41: one `setReg` of the step's random byte under the mask. -/
theorem rndMasksTheRandomByte : Obligations.RndMasksTheRandomByte := by
  unfold Obligations.RndMasksTheRandomByte
  intro x kk s
  refine ⟨_, rfl, fun b => ?_, rfl, (frame_setReg s x _).setPc _⟩
  rw [reg_setReg_self, BitVec.getLsbD_and]

/-! ### With a flag -/

/-- Settles O38: the sum and the carry of `exec_of_setRegFlag`. -/
theorem addSetsSumAndCarry : Obligations.AddSetsSumAndCarry := by
  unfold Obligations.AddSetsSumAndCarry
  exact fun x y s => exec_of_setRegFlag rfl (BitVec.toNat_add _ _) (carryFlag_toNat _ _)

/-- Settles O39: the wrapped difference (`byte_sub_toNat`) and the greater flag, with the roles exchanged for `SUBN`. -/
theorem subtractionsSetDifferenceAndFlag : Obligations.SubtractionsSetDifferenceAndFlag := by
  unfold Obligations.SubtractionsSetDifferenceAndFlag
  exact fun x y s => ⟨exec_of_setRegFlag rfl (byte_sub_toNat _ _) (greaterFlag_toNat _ _),
    exec_of_setRegFlag rfl (byte_sub_toNat _ _) (greaterFlag_toNat _ _)⟩

/-- Settles O40: halving drops the old bit 0, doubling the old bit 7, and the flag is that bit under its mask. -/
theorem shiftsMoveOnePlace : Obligations.ShiftsMoveOnePlace := by
  unfold Obligations.ShiftsMoveOnePlace
  refine fun x y s => ⟨exec_of_setRegFlag rfl ?half (shrFlag_toNat _),
    exec_of_setRegFlag rfl ?double (shlFlag_toNat _)⟩
  case half => rw [BitVec.toNat_ushiftRight, Nat.shiftRight_one]
  case double => rw [BitVec.toNat_shiftLeft, Nat.shiftLeft_eq, pow_one]

end Sys2Proof.Machine
end

section
/-! SUPPORT. The index register and memory (R190 to R195): the values written to `I`, the digits of a byte, and the three
range accesses whose range lies inside memory. -/

namespace Sys2Proof.Machine

variable {s : State} {x : RegIx}

/-! ### The three writers of `I` -/

/-- The sum of a 16-bit index and a byte wraps by 65536 (R191, decision D14). -/
theorem add_zext16_toNat (w : Word) (b : Byte) : (w + zext16 b).toNat = (w.toNat + b.toNat) % 65536 := by
  rw [BitVec.toNat_add, zext16_toNat]

/-- Five times a byte, digit or not, stays below 65536 (R192, decision D15). -/
theorem glyphAddr_toNat (d : Byte) : (glyphAddr d).toNat = 5 * d.toNat := by
  have hd := d.isLt
  rw [glyphAddr, Config.glyphHeight, BitVec.toNat_ofNat, Nat.mod_eq_of_lt (by omega)]

/-- Settles O42: each is one `setIndex`, and the number is that of the word written. -/
theorem indexWrites : Obligations.IndexWrites := by
  unfold Obligations.IndexWrites
  intro nnn x s
  have hframe (w : Word) : Frame { index := true } s (s.setIndex w).advance := (frame_setIndex s w).setPc _
  exact ⟨⟨_, rfl, addrOf_toNat nnn, rfl, hframe _⟩, ⟨_, rfl, add_zext16_toNat s.i (s.reg x), rfl, hframe _⟩,
    ⟨_, rfl, glyphAddr_toNat (s.reg x), rfl, hframe _⟩⟩

/-! ### The digits of a byte, as numbers -/

theorem hundreds_toNat (b : Byte) : (hundreds b).toNat = b.toNat / 100 := by
  have hb := b.isLt
  rw [hundreds, BitVec.toNat_ofNat, Nat.mod_eq_of_lt (by omega)]

theorem tens_toNat (b : Byte) : (tens b).toNat = b.toNat / 10 % 10 := by
  rw [tens, BitVec.toNat_ofNat, Nat.mod_eq_of_lt (by omega)]

theorem ones_toNat (b : Byte) : (ones b).toNat = b.toNat % 10 := by
  rw [ones, BitVec.toNat_ofNat, Nat.mod_eq_of_lt (by omega)]

/-! ### A range inside memory: the access is its body -/

theorem exec_ldBVx_of_fits (h : s.dataAddr 2 ≤ 0xFFF) :
    exec (.ldBVx x) s = .next (s.storeBytes (s.dataAddr 0) (digitsOf (s.reg x))).advance :=
  congrArg Host.Outcome.next (withRange_of_fits s (.inr (Nat.succ_le_succ h)))

theorem exec_storeRegs_of_fits (h : s.dataAddr x.val ≤ 0xFFF) :
    exec (.storeRegs x) s = .next (s.storeBytes (s.dataAddr 0) (s.firstRegs (x.val + 1))).advance :=
  congrArg Host.Outcome.next (withRange_of_fits s (.inr (Nat.succ_le_succ h)))

theorem exec_loadRegs_of_fits (h : s.dataAddr x.val ≤ 0xFFF) :
    exec (.loadRegs x) s = .next (s.loadFrom (s.dataAddr 0) (x.val + 1)).advance :=
  congrArg Host.Outcome.next (withRange_of_fits s (.inr (Nat.succ_le_succ h)))

/-! ### The range store and the range load, inclusive -/

/-- The store of `V[0]` to `V[x]` writes up to `I + x` and no further (R194). -/
theorem frame_storeBytes_firstRegs (s : State) (x : RegIx) :
    Frame { mem := fun a => s.dataAddr 0 ≤ a ∧ a ≤ s.dataAddr x.val } s
      (s.storeBytes (s.dataAddr 0) (s.firstRegs (x.val + 1))) := by
  have hf := frame_storeBytes s (s.dataAddr 0) (s.firstRegs (x.val + 1))
  rw [length_firstRegs s x.isLt] at hf
  exact { hf with mem := fun a ha => hf.mem a fun ⟨hlo, hhi⟩ => ha ⟨hlo, Nat.le_of_lt_succ hhi⟩ }

/-- The load of `x + 1` registers writes up to `V[x]` and no further (R195). -/
theorem frame_loadFrom_inclusive (s : State) (a : Nat) (x : RegIx) :
    Frame { regs := (· ≤ x) } s (s.loadFrom a (x.val + 1)) :=
  have hf := frame_loadFrom s a (x.val + 1)
  { hf with regs := fun r hr => hf.regs r fun hlt => hr (Nat.le_of_lt_succ hlt) }

/-- Settles O43: byte `k` of the range is digit `k` (`readByte_storeBytes_inside`). -/
theorem bcdStoresThreeDigits : Obligations.BcdStoresThreeDigits := by
  unfold Obligations.BcdStoresThreeDigits
  intro x s h
  have hdigit (k : Nat) (hk : k < 3) :
      (s.storeBytes (s.dataAddr 0) (digitsOf (s.reg x))).advance.readByte (s.dataAddr k) = (digitsOf (s.reg x))[k] :=
    readByte_storeBytes_inside s s.i.toNat (digitsOf (s.reg x)) hk
  refine ⟨_, exec_ldBVx_of_fits h, ?_, ?_, ?_, rfl, (frame_storeBytes s _ (digitsOf (s.reg x))).setPc _⟩
  · rw [hdigit 0 (by decide)]
    exact hundreds_toNat (s.reg x)
  · rw [hdigit 1 (by decide)]
    exact tens_toNat (s.reg x)
  · rw [hdigit 2 (by decide)]
    exact ones_toNat (s.reg x)

/-- Settles O44: byte `r` of the range is `V[r]` (`readByte_storeBytes_firstRegs`). -/
theorem storeWritesTheInclusiveRange : Obligations.StoreWritesTheInclusiveRange := by
  unfold Obligations.StoreWritesTheInclusiveRange
  intro x s h
  refine ⟨_, exec_storeRegs_of_fits h, fun r hr => ?_, rfl, (frame_storeBytes_firstRegs s x).setPc _⟩
  exact readByte_storeBytes_firstRegs s s.i.toNat x.isLt r (Nat.lt_succ_of_le hr)

/-- Settles O45: a register of the range gets its byte (`reg_loadFrom`). -/
theorem loadReadsTheInclusiveRange : Obligations.LoadReadsTheInclusiveRange := by
  unfold Obligations.LoadReadsTheInclusiveRange
  intro x s h
  refine ⟨_, exec_loadRegs_of_fits h, fun r hr => ?_, rfl, (frame_loadFrom_inclusive s _ x).setPc _⟩
  exact (reg_loadFrom s s.i.toNat (x.val + 1) r).trans (if_pos (Nat.lt_succ_of_le hr))

/-! ### A store and its load -/

/-- Settles O47: the store leaves `I` (its frame), so the load reads where the store wrote, and by its own frame it keeps
the registers past `x`. -/
theorem storeThenLoadRoundTrip : Obligations.StoreThenLoadRoundTrip := by
  unfold Obligations.StoreThenLoadRoundTrip
  intro x s v h
  obtain ⟨t, hstore, hstored, -, htframe⟩ := storeWritesTheInclusiveRange x s h
  have hi : t.i = s.i := htframe.index rfl
  have haddr (k : Nat) : ({ t with v := v } : State).dataAddr k = s.dataAddr k := by rw [State.dataAddr, hi]
  obtain ⟨u, hload, hloaded, -, huframe⟩ := loadReadsTheInclusiveRange x { t with v := v } ((haddr x.val).trans_le h)
  refine ⟨t, u, hstore, hload, fun r hr => ?_, fun r hr => huframe.regs r (not_le.2 hr)⟩
  calc u.reg r
    _ = t.readByte (s.dataAddr r.val) := (hloaded r hr).trans (congrArg t.readByte (haddr r.val))
    _ = s.reg r := hstored r hr

end Sys2Proof.Machine
end

section
/-! SUPPORT. The screen under `CLS`, under one sprite bit, and under whole steps and host moves (R210, R211, R215). -/

namespace Sys2Proof.Machine

variable {s t : State}

/-! ### Cells by number and by coordinates (R210) -/

theorem cell_of_coords (s : State) {cx : Nat} (hx : cx < 64) (cy : Nat) : s.cell (64 * cy + cx) = litAt s.fb cx cy := by
  rw [State.cell, show (64 * cy + cx) % 64 = cx by omega, show (64 * cy + cx) / 64 = cy by omega]

/-- Cell `k` is the one at wrapped coordinates exactly when they are its column and row (R210). -/
theorem cellNumber_iff (cx cy k : Nat) :
    k = 64 * (cy % 32) + cx % 64 ↔ k % 64 = cx % 64 ∧ k / 64 = cy % 32 := by
  omega

/-- Settles O54: a toggle flips the cell at its wrapped coordinates alone (`litAt_toggleAt`), and these number that cell. -/
theorem spriteBitsWrapCellByCell : Obligations.SpriteBitsWrapCellByCell := by
  unfold Obligations.SpriteBitsWrapCellByCell
  refine ⟨fun s cx cy hx _ => (cell_of_coords s hx cy).symm, fun c x0 y0 col row k hk => ?_⟩
  have hrow : k / 64 % 32 = k / 64 := Nat.mod_eq_of_lt (by omega)
  rw [plot_fb, litAt_toggleAt, Nat.mod_mod, hrow, ← Bool.decide_and]
  simp only [← cellNumber_iff]
  split
  · next h => rw [decide_eq_true h, Bool.xor_true]
  · next h => rw [decide_eq_false h, Bool.xor_false]

/-! ### `CLS` (R211) -/

theorem exec_cls (z : BitVec 4) (s : State) :
    exec (.cls z) s = .next (s.setScreen (Vector.replicate 32 0)).advance := rfl

theorem cell_of_blank (h : s.fb = Vector.replicate 32 0) (c : Nat) : s.cell c = false := by
  rw [State.cell, h]
  exact litAt_blank _ _

/-- Settles O50: the blank screen is dark in every cell (`cell_of_blank`), and the screen is all that is set. -/
theorem clsUnlightsEveryCell : Obligations.ClsUnlightsEveryCell := by
  unfold Obligations.ClsUnlightsEveryCell
  intro z s
  exact ⟨word_fam0 _ z, _, exec_cls z s, fun c _ => cell_of_blank rfl c, rfl, (frame_setScreen s _).setPc _⟩

/-! ### Who writes the screen (R215) -/

theorem fb_endStep (s : State) : s.endStep.fb = s.fb := by
  unfold State.endStep
  split <;> rfl

theorem fb_of_step_cls {z : BitVec 4} (hi : Fetches s (.cls z)) (h : step s = .next t) :
    t.fb = Vector.replicate 32 0 := by
  obtain rfl := Host.Outcome.next.inj ((step_of_exec hi (exec_cls z _)).symm.trans h)
  exact fb_endStep _

/-- A step that changes the screen completes the `CLS` or the `DRW` it fetched. -/
theorem step_screen_cases (h : step s = .next t) :
    t.fb = s.fb ∨ (t.fault = none ∧ ((∃ z, Fetches s (.cls z)) ∨ ∃ x y n, Fetches s (.drw x y n))) := by
  cases step_cases h with
  | halted | faulted | unknown => exact .inl rfl
  | @ran i u hi hx hc =>
    have hf : u.fault = none := hc.fault.trans hi.1
    cases i with
    | cls z => exact .inr ⟨hf, .inl ⟨z, hi⟩⟩
    | drw x y n => exact .inr ⟨hf, .inr ⟨x, y, n, hi⟩⟩
    | _ => exact .inl (hc.frame.screen rfl)

theorem fb_of_fetchesUnknown (hu : FetchesUnknown s) (h : step s = .next t) : t.fb = s.fb := by
  obtain rfl := Host.Outcome.next.inj ((step_of_fetchesUnknown hu).symm.trans h)
  exact fb_endStep _

/-- No host move but reset and the step touches the screen (R35). -/
theorem fb_of_hostMove {c d : Console} {m : HostMove} (h : c.apply m = some d) (hr : m ≠ .reset) (hs : m ≠ .step) :
    d.core.fb = c.core.fb := by
  rcases apply_cases h with ⟨rfl, -⟩ | ⟨a, b, -, -, -, rfl⟩ | ⟨k, -, rfl⟩ | ⟨t, rfl, -⟩
  · exact absurd rfl hr
  · rfl
  · rfl
  · exact absurd rfl hs

/-- Settles O19: the ways of a step (`step_screen_cases`) and of a host move (`fb_of_hostMove`). -/
theorem onlyClsAndDrwWriteTheScreen : Obligations.OnlyClsAndDrwWriteTheScreen := by
  unfold Obligations.OnlyClsAndDrwWriteTheScreen
  refine ⟨fun s t h => ⟨fun hne => ?_, fun z hi q _ => cell_of_blank (fb_of_step_cls hi h) q, ?_⟩,
    fun c d a b k => ⟨?_, fun h q _ => ?_⟩⟩
  · exact ((step_screen_cases h).resolve_left hne).2
  · rintro (hu | hf)
    · exact fb_of_fetchesUnknown hu h
    · exact (step_screen_cases h).resolve_right fun hw => hf hw.1
  · rintro (h | h)
    · exact fb_of_hostMove h nofun nofun
    · exact fb_of_hostMove h nofun nofun
  · obtain rfl := Option.some.inj h
    exact cell_hostReset c.core c.rom q

end Sys2Proof.Machine
end

section
/-! SUPPORT. `DRW` (R212, R213, R214): what the blit reads, the cells it toggles, what it reports, and the same `DRW` twice. -/

namespace Sys2Proof.Machine

variable {s t : State}

/-! ### Origins matter modulo the screen's size (R214 (e)) -/

theorem plot_congr (c : Canvas) {cx cy dx dy : Nat} (hx : cx % 64 = dx % 64) (hy : cy % 32 = dy % 32) :
    plot c cx cy = plot c dx dy := by
  simp only [plot, toggleAt, litAt, hx, hy]

theorem drawCols_congr {x x' y y' : Nat} (hx : x % 64 = x' % 64) (hy : y % 32 = y' % 32) (b : Byte) (cols : Nat)
    (c : Canvas) : drawCols x y b cols c = drawCols x' y' b cols c := by
  induction cols with
  | zero => rfl
  | succ col ih =>
    have hcol : (x + col) % 64 = (x' + col) % 64 := Nat.ModEq.add_right col hx
    rw [drawCols_succ, drawCols_succ, ih, plot_congr _ hcol hy]

theorem drawRows_congr {x x' y y' : Nat} (hx : x % 64 = x' % 64) (hy : y % 32 = y' % 32) (m : Memory) (a rows : Nat)
    (c : Canvas) : drawRows m a x y rows c = drawRows m a x' y' rows c := by
  induction rows with
  | zero => rfl
  | succ row ih =>
    have hrow : (y + row) % 32 = (y' + row) % 32 := Nat.ModEq.add_right row hy
    rw [drawRows_succ, drawRows_succ, ih, drawCols_congr hx hrow]

/-- Settles O55: an origin and its remainder are congruent, and the blit sees no more (`drawRows_congr`). -/
theorem drawOriginsWrap : Obligations.DrawOriginsWrap := by
  unfold Obligations.DrawOriginsWrap
  intro s x0 y0 h
  exact drawRows_congr (Nat.mod_mod x0 64).symm (Nat.mod_mod y0 32).symm _ _ h _

/-! ### The blit, in the terms of the claims -/

/-- A cell is covered exactly when the sprite hits its column and row (R210, R212). -/
theorem spriteCovers_iff {x0 y0 h c : Nat} :
    spriteCovers s x0 y0 h c ↔ spriteHits s.mem s.i.toNat x0 y0 h (c % 64) (c / 64) := by
  constructor
  · rintro ⟨row, hrow, col, hcol, hbit, hcell⟩
    obtain ⟨hx, hy⟩ := (cellNumber_iff _ _ _).1 hcell
    exact ⟨row, hrow, ⟨col, hcol, hbit, hx.symm⟩, hy.symm⟩
  · rintro ⟨row, hrow, ⟨col, hcol, hbit, hx⟩, hy⟩
    exact ⟨row, hrow, col, hcol, hbit, (cellNumber_iff _ _ _).2 ⟨hx.symm, hy.symm⟩⟩

/-- The target of a sprite bit is a cell of the screen, lit as its coordinates are (R210). -/
theorem cell_target (s : State) (cx cy : Nat) : s.cell (64 * (cy % 32) + cx % 64) = litAt s.fb cx cy := by
  rw [cell_of_coords s (Nat.mod_lt _ (by decide)), litAt_mod]

/-- The blit hits exactly when a covered cell was lit before it (R213, R214 (c)). -/
theorem hit_draw_iff (s : State) (x0 y0 : Nat) {h : Nat} (hh : h ≤ 32) :
    (s.draw x0 y0 h).hit = true ↔ ∃ c, c < 2048 ∧ spriteCovers s x0 y0 h c ∧ s.cell c = true := by
  rw [State.draw, hit_drawRows _ _ _ _ hh]
  constructor
  · rintro (hfalse | ⟨row, hrow, col, hcol, hbit, hlit⟩)
    · exact nomatch hfalse
    · exact ⟨_, by omega, ⟨row, hrow, col, hcol, hbit, rfl⟩, (cell_target s _ _).trans hlit⟩
  · rintro ⟨c, -, ⟨row, hrow, col, hcol, hbit, rfl⟩, hlit⟩
    exact .inr ⟨row, hrow, col, hcol, hbit, (cell_target s _ _).symm.trans hlit⟩

/-- The state a `DRW` that fits leaves: the blit from a state whose VF is zeroed (R213). -/
def State.afterDrw (s : State) (x y : RegIx) (h : Nat) : State := (s.setReg Config.flagReg 0).drawSprite x y h

theorem exec_drw_of_fits (x y : RegIx) {n : BitVec 4} (h : n.toNat = 0 ∨ s.i.toNat + n.toNat - 1 ≤ 0xFFF) :
    exec (.drw x y n) s = .next (s.afterDrw x y n.toNat) :=
  congrArg Host.Outcome.next (withRange_of_fits s (by omega))

theorem reg_zeroedFlag_toNat (s : State) (r : RegIx) : ((s.setReg Config.flagReg 0).reg r).toNat = coord s r := by
  rw [reg_setReg, coord, Config.flagReg, apply_ite BitVec.toNat]
  rfl

theorem fb_afterDrw (s : State) (x y : RegIx) (h : Nat) :
    (s.afterDrw x y h).fb = (s.draw (coord s x) (coord s y) h).fb := by
  rw [← reg_zeroedFlag_toNat s x, ← reg_zeroedFlag_toNat s y]
  rfl

theorem reg15_afterDrw (s : State) (x y : RegIx) (h : Nat) :
    (s.afterDrw x y h).reg 15 = collisionFlag (s.draw (coord s x) (coord s y) h).hit := by
  rw [← reg_zeroedFlag_toNat s x, ← reg_zeroedFlag_toNat s y, State.afterDrw, State.drawSprite, reg_advance,
    reg_setReg, if_pos rfl]
  rfl

/-- Settles O51: `litAt_drawRows` for the cells and `hit_draw_iff` for the flag; a sprite has at most 15 rows. -/
theorem drawTogglesExactlyTheSprite : Obligations.DrawTogglesExactlyTheSprite := by
  unfold Obligations.DrawTogglesExactlyTheSprite
  intro x y n s h
  have hrows : n.toNat ≤ 32 := by omega
  have hcell {c : Nat} (hc : c < 2048) := litAt_drawRows s.mem s.i.toNat (coord s x) (coord s y) hrows ⟨s.fb, false⟩
    (Nat.mod_lt c (by decide)) (show c / 64 < 32 by omega)
  have hhit := hit_draw_iff s (coord s x) (coord s y) hrows
  refine ⟨_, exec_drw_of_fits x y h, fun c hc hcov => ?_, fun c hc hcov => ?_, fun hlit => ?_, fun hdark => ?_, rfl,
    frame_drawSprite s x y n.toNat⟩
  · rw [State.cell, fb_afterDrw]
    exact (hcell hc).1 (spriteCovers_iff.1 hcov)
  · rw [State.cell, fb_afterDrw]
    exact (hcell hc).2 (mt spriteCovers_iff.2 hcov)
  · rw [reg15_afterDrw, hhit.2 hlit]
    rfl
  · have hmiss : (s.draw (coord s x) (coord s y) n.toNat).hit = false := by
      rw [← Bool.not_eq_true, hhit]
      rintro ⟨c, hc, hcov, hlit⟩
      exact Bool.noConfusion (hlit.symm.trans (hdark c hc hcov))
    rw [reg15_afterDrw, hmiss]
    rfl

/-! ### The same `DRW` twice (R214 (a)) -/

/-- The second of two equal `DRW` covers the same cells: the first keeps `I`, memory and the coordinates as they are read. -/
theorem spriteCovers_of_frame (hf : Frame { regs := (· = 15), screen := true } s t) (x y : RegIx) (h c : Nat) :
    spriteCovers t (coord t x) (coord t y) h c ↔ spriteCovers s (coord s x) (coord s y) h c := by
  have hcoord (r : RegIx) : coord t r = coord s r := by
    unfold coord
    split
    · rfl
    · exact congrArg BitVec.toNat (hf.regs r ‹_›)
  have hread (a : Nat) : t.readByte a = s.readByte a := hf.mem a id
  simp only [spriteCovers, hcoord, hread, hf.index rfl]

/-- Both draws, each as DrawTogglesExactlyTheSprite says, over the cells the sprite covers in the first state. -/
theorem exec_drw_twice (x y : RegIx) {n : BitVec 4} (h : n.toNat = 0 ∨ s.i.toNat + n.toNat - 1 ≤ 0xFFF) :
    ∃ t u, exec (.drw x y n) s = .next t ∧ exec (.drw x y n) t = .next u ∧
      (∀ c, c < 2048 → spriteCovers s (coord s x) (coord s y) n.toNat c → t.cell c = !s.cell c) ∧
      (∀ c, c < 2048 → u.cell c = s.cell c) ∧
      ((∃ c, c < 2048 ∧ spriteCovers s (coord s x) (coord s y) n.toNat c ∧ t.cell c = true) → u.reg 15 = 1) ∧
      ((∀ c, c < 2048 → spriteCovers s (coord s x) (coord s y) n.toNat c → t.cell c = false) → u.reg 15 = 0) := by
  obtain ⟨t, ht, hon, hoff, -, -, -, hframe⟩ := drawTogglesExactlyTheSprite x y n s h
  have hfits : n.toNat = 0 ∨ t.i.toNat + n.toNat - 1 ≤ 0xFFF := by rwa [hframe.index rfl]
  obtain ⟨u, hu, hon', hoff', hlit, hdark, -, -⟩ := drawTogglesExactlyTheSprite x y n t hfits
  simp only [spriteCovers_of_frame hframe] at hon' hoff' hlit hdark
  refine ⟨t, u, ht, hu, hon, fun c hc => ?_, hlit, hdark⟩
  by_cases hcov : spriteCovers s (coord s x) (coord s y) n.toNat c
  · rw [hon' c hc hcov, hon c hc hcov, Bool.not_not]
  · rw [hoff' c hc hcov, hoff c hc hcov]

/-- Settles O52: two toggles of a cell are none (`exec_drw_twice`). -/
theorem drawTwiceRestoresTheScreen : Obligations.DrawTwiceRestoresTheScreen := by
  unfold Obligations.DrawTwiceRestoresTheScreen
  intro x y n s h
  obtain ⟨t, u, ht, hu, -, hsame, -⟩ := exec_drw_twice x y h
  exact ⟨t, u, ht, hu, screen_ext_cell hsame⟩

theorem exists_spriteBit_of_ne_zero {b : Byte} (hb : b ≠ 0) : ∃ col, col < 8 ∧ b.getLsbD (7 - col) = true := by
  by_contra hnone
  push Not at hnone
  refine hb (BitVec.eq_of_getLsbD_eq fun k hk => ?_)
  have hk' := hnone (7 - k) (by omega)
  rw [show 7 - (7 - k) = k by omega] at hk'
  rw [Bool.eq_false_of_not_eq_true hk', BitVec.ofNat_eq_ofNat, BitVec.getLsbD_zero]

/-- A sprite covers some cell exactly when one of its row bytes is not 0: no target is clipped. -/
theorem exists_spriteCovers_iff (s : State) (x0 y0 h : Nat) :
    (∃ c, c < 2048 ∧ spriteCovers s x0 y0 h c) ↔ ∃ row, row < h ∧ s.readByte (s.i.toNat + row) ≠ 0 := by
  constructor
  · rintro ⟨c, -, row, hrow, col, -, hbit, -⟩
    refine ⟨row, hrow, fun h0 => ?_⟩
    rw [h0, BitVec.ofNat_eq_ofNat, BitVec.getLsbD_zero] at hbit
    exact Bool.noConfusion hbit
  · rintro ⟨row, hrow, hne⟩
    obtain ⟨col, hcol, hbit⟩ := exists_spriteBit_of_ne_zero hne
    exact ⟨_, by omega, row, hrow, col, hcol, hbit, rfl⟩

/-- Settles O53: the first draw flips the covered cells, so the second finds lit those that were not (`exec_drw_twice`). -/
theorem secondDrawHitsTheCellsUnlitBefore : Obligations.SecondDrawHitsTheCellsUnlitBefore := by
  unfold Obligations.SecondDrawHitsTheCellsUnlitBefore
  intro x y n s h
  obtain ⟨t, u, ht, hu, hflip, -, hlit, hdark⟩ := exec_drw_twice x y h
  have hone : (∃ c, c < 2048 ∧ spriteCovers s (coord s x) (coord s y) n.toNat c ∧ s.cell c = false) → u.reg 15 = 1 := by
    rintro ⟨c, hc, hcov, hunlit⟩
    exact hlit ⟨c, hc, hcov, by rw [hflip c hc hcov, hunlit, Bool.not_false]⟩
  have hzero : (∀ c, c < 2048 → spriteCovers s (coord s x) (coord s y) n.toNat c → s.cell c = true) → u.reg 15 = 0 :=
    fun hall => hdark fun c hc hcov => by rw [hflip c hc hcov, hall c hc hcov, Bool.not_true]
  refine ⟨t, u, ht, hu, hone, hzero, fun hunlit => ?_⟩
  split
  · next hrow =>
    obtain ⟨c, hc, hcov⟩ := (exists_spriteCovers_iff s (coord s x) (coord s y) n.toNat).2 hrow
    exact hone ⟨c, hc, hcov, hunlit c hc hcov⟩
  · next hrow =>
    exact hzero fun c hc hcov => absurd ((exists_spriteCovers_iff s _ _ _).1 ⟨c, hc, hcov⟩) hrow

end Sys2Proof.Machine
end

section
/-! SUPPORT. Timers and keys (R230 to R239): the tick of a step, the timer moves, the key skips, the wait for a key. -/

namespace Sys2Proof.Machine

variable {s : State} {x : RegIx}

/-! ### The tick of a step -/

/-- What the end of a step that does not fault makes of the timers and the pulse (R230, R231). -/
theorem timers_after_tick (t : State) :
    t.tick.nextDraw.dt.toNat = t.dt.toNat - 1 ∧ t.tick.nextDraw.st.toNat = t.st.toNat - 1 ∧
      (t.tick.nextDraw.beep = true ↔ t.st.toNat = 1) :=
  ⟨countDown_toNat t.dt, countDown_toNat t.st, tick_beep_iff t⟩

/-- An unknown word is stepped over, and the tick follows (R126, R128). -/
theorem step_of_fetchesUnknown_ticks (hu : FetchesUnknown s) :
    step s = .next (s.clearOutputs.unknownOpcode (wordAt s)).tick.nextDraw := by
  rw [step_of_fetchesUnknown hu, endStep_of_none (s.clearOutputs.unknownOpcode (wordAt s)) hu.1]

/-- A step that ends with FAULT latched does not tick: it found the core halted, or it took the fault (R230). -/
theorem timers_of_faulted_step {u : State} (h : step s = .next u) (hu : u.fault ≠ none) :
    u.dt = s.dt ∧ u.st = s.st ∧ u.beep = false := by
  cases step_cases h with
  | halted | faulted => exact ⟨rfl, rfl, rfl⟩
  | ran hi _ hc => exact absurd (hc.fault.trans hi.1) hu
  | unknown hw => exact absurd hw.1 hu

/-- Settles O25: an instruction and an unknown word are each followed by one tick (`timers_after_tick`), a fault or a halt
by none (`timers_of_faulted_step`). -/
theorem everyRunningStepTicksOnce : Obligations.EveryRunningStepTicksOnce := by
  unfold Obligations.EveryRunningStepTicksOnce
  refine ⟨fun s t i hi hx ht => ?instruction, fun s hu => ?unknown, fun s u => timers_of_faulted_step⟩
  case instruction => exact ⟨_, step_of_exec_noFault hi hx ht, timers_after_tick t⟩
  case unknown => exact ⟨_, step_of_fetchesUnknown_ticks hu, timers_after_tick _⟩

/-! ### The timer moves -/

/-- Settles O56: each move writes one place; in a step the tick comes after it (`step_of_exec_noFault`), so it counts down
the timer the move leaves. -/
theorem timerMoves : Obligations.TimerMoves := by
  unfold Obligations.TimerMoves
  intro x s
  refine ⟨⟨_, rfl, reg_setReg_self s x s.dt, rfl, (frame_setReg s x s.dt).setPc _⟩,
    ⟨_, rfl, rfl, rfl, (frame_setDelay s (s.reg x)).setPc _⟩,
    ⟨_, rfl, rfl, rfl, (frame_setSound s (s.reg x)).setPc _⟩,
    fun hi => ?readDelay, fun hi => ?writeDelay, fun hi => ?writeSound⟩
  case readDelay =>
    exact ⟨_, step_of_exec_noFault hi rfl hi.1, reg_setReg_self s.clearOutputs x s.dt, countDown_toNat s.dt⟩
  case writeDelay =>
    exact ⟨_, step_of_exec_noFault hi rfl hi.1, countDown_toNat (s.reg x)⟩
  case writeSound =>
    exact ⟨_, step_of_exec_noFault hi rfl hi.1, countDown_toNat (s.reg x),
      tick_beep_iff (s.clearOutputs.setSound (s.reg x)).advance⟩

/-! ### The key skips -/

/-- Settles O57: a key code is no fault, and `pcAfter` is the skip's class (`exec_of_noFault`); above 15 the fault is due
(`exec_of_fault`). -/
theorem keySkipsTestTheLatch : Obligations.KeySkipsTestTheLatch := by
  unfold Obligations.KeySkipsTestTheLatch
  refine fun x s => ⟨fun hk => ?keyCode, fun hk => ?noKeyCode⟩
  case keyCode =>
    have hno : ¬ 15 < (s.reg x).toNat := Nat.not_lt.2 hk
    exact ⟨exec_of_noFault (i := .skp x) (if_neg hno), exec_of_noFault (i := .sknp x) (if_neg hno)⟩
  case noKeyCode =>
    exact ⟨exec_of_fault (i := .skp x) (if_pos hk), exec_of_fault (i := .sknp x) (if_pos hk)⟩

/-! ### The wait for a key -/

/-- With no key set the wait changes nothing (R238). -/
theorem exec_ldVxK_of_noKey (h : s.keys = 0) : exec (.ldVxK x) s = .next s := by
  rw [exec, execLdVxK, (lowestKey_eq_none s).2 h]

/-- With a key set the wait takes the lowest one (R238). -/
theorem exec_ldVxK_of_lowestKey {k : Nat} (h : s.lowestKey = some k) :
    exec (.ldVxK x) s = .next (s.setReg x (BitVec.ofNat 8 k)).advance := by
  rw [exec, execLdVxK, h]

/-- Settles O58: the two answers of the search for the lowest key (`lowestKey_eq_none`, `lowestKey_eq_some`). -/
theorem keyWaitStallsOrTakesTheLowestKey : Obligations.KeyWaitStallsOrTakesTheLowestKey := by
  unfold Obligations.KeyWaitStallsOrTakesTheLowestKey
  refine fun x s => ⟨word_xss x rfl, fun hnone => ?stall, fun k hk hset hlow => ?taken⟩
  case stall =>
    have hkeys : s.keys = 0 := BitVec.eq_of_getLsbD_eq fun k hk => (hnone k hk).trans BitVec.getLsbD_zero.symm
    exact exec_ldVxK_of_noKey hkeys
  case taken =>
    have hlowest : s.lowestKey = some k := (lowestKey_eq_some s).2 ⟨hk, hset, hlow⟩
    refine ⟨_, exec_ldVxK_of_lowestKey hlowest, ?_, rfl, (frame_setReg s x _).setPc _⟩
    rw [reg_setReg_self, BitVec.toNat_ofNat, Nat.mod_eq_of_lt (by omega)]

/-- Settles O59: a stall leaves all to the tick (`exec_ldVxK_of_noKey`, `endStep_eq`), `pc` and memory as they were; with
a key set `pc` moves on by `pcAfter`. -/
theorem stalledStepOnlyTicks : Obligations.StalledStepOnlyTicks := by
  unfold Obligations.StalledStepOnlyTicks
  refine fun x s hi => ⟨fun hk => ?stalled, fun hk => ?released⟩
  case stalled =>
    have hstep := step_of_exec hi (exec_ldVxK_of_noKey (s := s.clearOutputs) hk)
    rw [endStep_eq (s := s.clearOutputs) hi.1] at hstep
    exact ⟨_, hstep, hi, rfl⟩
  case released =>
    obtain ⟨t, hstep, -, hpc⟩ := pcMovesByItsClass s (.ldVxK x) hi (faultDue_of_fetches hi)
    exact ⟨t, hstep, hpc.trans (if_neg hk)⟩

end Sys2Proof.Machine
end

section
/-! SUPPORT. The fault table over a step (R251, R252): the latch after it, and what the host is shown. -/

namespace Sys2Proof.Machine

variable {s t : State}

/-- An instruction that completed had no fault due (R251). -/
theorem faultDue_of_completes {i : Instr} {u : State} (hi : Fetches s i) (hc : Completes i s.clearOutputs u) :
    faultDue s = none :=
  (faultDue_of_fetches hi).trans (instrFault_clearOutputs.symm.trans hc.noFault)

/-- A running core takes the fault that is due, or none is due and it latches none (R251, R252). -/
theorem step_fault_cases (hf : s.fault = none) (h : step s = .next t) :
    (∃ r, faultDue s = some r ∧ t = s.raise r.code r.info) ∨ (faultDue s = none ∧ t.fault = none) := by
  cases step_cases h with
  | halted hr => exact nomatch hf.symm.trans hr
  | faulted _ hr => exact .inl ⟨_, hr, rfl⟩
  | ran hi _ hc => exact .inr ⟨faultDue_of_completes hi hc, hc.fault.trans hi.1⟩
  | unknown hu => exact .inr ⟨FetchesReported.noFaultDue (.inr hu), hu.1⟩

/-- With nothing latched the host is shown no fault (R35, R129). -/
theorem outputs_fault_of_none (h : t.fault = none) : t.outputs.fault = none := by
  rw [State.outputs, h, Option.map_none]

/-- Settles O12: `everyStateSteps` gives the next state and `step_fault_cases` what it latches; the host sees the latch. -/
theorem faultsAreExactlyTheTable : Obligations.FaultsAreExactlyTheTable := by
  unfold Obligations.FaultsAreExactlyTheTable
  intro s hf
  obtain ⟨t, hstep⟩ := everyStateSteps s
  obtain ⟨⟨code, info⟩, hdue, rfl⟩ | ⟨hnone, hlatch⟩ := step_fault_cases hf hstep
  · refine ⟨fun r hr => ?due, fun hn => nomatch hdue.symm.trans hn⟩
    case due =>
      obtain rfl := Option.some.inj (hdue.symm.trans hr)
      refine ⟨_, hstep, rfl, rfl, rfl, ?_⟩
      cases code <;> rfl
  · exact ⟨fun r hr => (nomatch hnone.symm.trans hr), fun _ => ⟨t, hstep, hlatch, outputs_fault_of_none hlatch⟩⟩

end Sys2Proof.Machine
end

section
/-! SUPPORT. The finished program (R283): the jump to its own address, step after step. -/

namespace Sys2Proof.Machine

variable {s : State} {nnn : BitVec 12}

/-- A jump to the address it stands at changes nothing in its execute phase (R142). -/
theorem exec_jp_self (h : nnn.toNat = s.pc.toNat) : exec (.jp nnn) s = .next s := by
  have htarget : addrOf nnn = s.pc := BitVec.eq_of_toNat_eq ((addrOf_toNat nnn).trans h)
  rw [exec, execJp, State.jumpTo, htarget]

/-- Settles O30: the self-jump leaves all to the tick (`exec_jp_self`, `endStep_eq`), and `pc`, memory and FAULT, which
`Finished` reads, are as they were. -/
theorem finishedProgramOnlyRunsDownTimers : Obligations.FinishedProgramOnlyRunsDownTimers := by
  unfold Obligations.FinishedProgramOnlyRunsDownTimers
  intro s ⟨nnn, hi, hself⟩
  have hstep := step_of_exec hi (exec_jp_self (s := s.clearOutputs) hself)
  rw [endStep_eq (s := s.clearOutputs) hi.1] at hstep
  exact ⟨_, hstep, ⟨nnn, hi, hself⟩, rfl⟩

end Sys2Proof.Machine
end
